-- ==== Sys2Proof/Word.lean ====
section
/-! DEFINITION. The word types of MFBP: bytes and 96-bit command words. -/

namespace Sys2Proof

/-- A byte: 8 bits, value 0..255 (R8). -/
abbrev Byte := BitVec 8

/-- A command word: 96 bits, bit 0 the least significant (R8, R50). -/
abbrev CmdWord := BitVec 96

end Sys2Proof
end

