-- ==== Sys2Proof/Syntax.lean ====
section
/-! DEFINITION. The ten commands of command set MFBP-1 (R2, R55) with their decoded operands: mathematical integers (R53). -/

namespace Sys2Proof

/-- "A two-valued selector {SET, CLEAR}" (R54). -/
inductive Colour where
  | clear
  | set
  deriving DecidableEq, Repr

/-- The solid selector `F`: 1 = solid (filled), 0 = outline (R51, R54). -/
inductive Fill where
  | outline
  | solid
  deriving DecidableEq, Repr

/-- One constructor per row of the opcode table (R55), operands as R52 and R53 say: a signed operand is an integer, an
unsigned one a natural number. The last argument `s` of a drawing command is its sync bit `S` (R54). -/
inductive Instr where
  | setpixel (x y : Int) (c : Colour) (s : Bool)
  | clear
  | drawline (x0 y0 x1 y1 : Int) (c : Colour) (s : Bool)
  | drawrect (x y w h : Int) (f : Fill) (c : Colour) (s : Bool)
  | drawcircle (cx cy r : Int) (f : Fill) (c : Colour) (s : Bool)
  | drawbitmap (s : Bool)
  | drawimage (dx dy : Int) (s : Bool)
  | setsrc (w h base : Nat)
  | flush
  | flushdirty
  deriving DecidableEq, Repr

end Sys2Proof
end

