-- ==== Sys2Proof/Machine/Operands.lean ====
section
/-! DEFINITION. The fields of a command word (R51), every operand form (R52, R53) in both directions, and the integer helpers of R8 and R9. -/

namespace Sys2Proof.Machine

/-- `op = w[95:88]` (R51). -/
def opField (w : CmdWord) : BitVec 8 := w.extractLsb' 88 8
/-- `rsv = w[87:67]` (R51). -/
def rsvField (w : CmdWord) : BitVec 21 := w.extractLsb' 67 21
/-- `F = w[66]` (R51). -/
def fBit (w : CmdWord) : Bool := w.getLsbD 66
/-- `C = w[65]` (R51). -/
def cBit (w : CmdWord) : Bool := w.getLsbD 65
/-- `S = w[64]` (R51). -/
def sBit (w : CmdWord) : Bool := w.getLsbD 64
/-- `a = w[63:48]` (R51). -/
def aField (w : CmdWord) : BitVec 16 := w.extractLsb' 48 16
/-- `b = w[47:32]` (R51). -/
def bField (w : CmdWord) : BitVec 16 := w.extractLsb' 32 16
/-- `c = w[31:16]` (R51). -/
def cField (w : CmdWord) : BitVec 16 := w.extractLsb' 16 16
/-- `d = w[15:0]` (R51). -/
def dField (w : CmdWord) : BitVec 16 := w.extractLsb' 0 16

/-- A command word from its fields, each at its place, with `rsv = 0` (R51, R57). -/
def packWord (op : BitVec 8) (f c s : Bool) (fa fb fc fd : BitVec 16) : CmdWord :=
  BitVec.ofNat 96 (op.toNat * 2 ^ 88 + f.toNat * 2 ^ 66 + c.toNat * 2 ^ 65 + s.toNat * 2 ^ 64
    + fa.toNat * 2 ^ 48 + fb.toNat * 2 ^ 32 + fc.toNat * 2 ^ 16 + fd.toNat)

/-- `s16(f)`: a 16-bit field read as two's complement (R8). -/
def s16 (v : BitVec 16) : Int := v.toInt
/-- `u16(f)`: a 16-bit field read as unsigned (R8). -/
def u16 (v : BitVec 16) : Nat := v.toNat
/-- `{c, d}`, the 32-bit source base of SETSRC: `u16(c)*65536 + u16(d)` (R53). -/
def base32 (hi lo : BitVec 16) : Nat := u16 hi * 65536 + u16 lo
/-- The 16-bit field that holds a signed operand. -/
def toS16 (v : Int) : BitVec 16 := BitVec.ofInt 16 v
/-- The 16-bit field that holds an unsigned operand. -/
def toU16 (v : Nat) : BitVec 16 := BitVec.ofNat 16 v
/-- `base[31:16]` (R52). -/
def baseHi (v : Nat) : BitVec 16 := BitVec.ofNat 16 (v / 65536)
/-- `base[15:0]` (R52). -/
def baseLo (v : Nat) : BitVec 16 := BitVec.ofNat 16 v

/-- `C = 1` is SET, `C = 0` is CLEAR (R54). -/
def colourOf (b : Bool) : Colour := if b then .set else .clear
/-- `F = 1` selects solid, `F = 0` outline (R54). -/
def fillOf (b : Bool) : Fill := if b then .solid else .outline
/-- The bit `C` of a colour; also the pixel bit that the colour writes (R54, R19). -/
def colourBit : Colour → Bool
  | .set => true
  | .clear => false
/-- The bit `F` of a fill selector (R54). -/
def fillBit : Fill → Bool
  | .solid => true
  | .outline => false

/-- `tdiv2(v)`: `v/2` rounded toward zero (R9, D13). -/
def tdiv2 (v : Int) : Int := if 0 ≤ v then v / 2 else -((-v) / 2)

/-- `|v|` as a natural number (R9). -/
def absDiff (p q : Int) : Nat := (q - p).natAbs

end Sys2Proof.Machine
end

