-- ==== Sys2Proof/WellFormed.lean ====
section
/-! DEFINITION. Which commands can be written as a command word: every operand fits its field (R53, R61). -/

namespace Sys2Proof

/-- A signed operand fits its 16-bit field: -32768..32767 (R53). -/
def fitsS16 (v : Int) : Bool := decide (-32768 ≤ v) && decide (v ≤ 32767)

/-- An unsigned operand fits its 16-bit field: 0..65535 (R53). -/
def fitsU16 (v : Nat) : Bool := decide (v ≤ 65535)

/-- The source base fits 32 bits: 0..2^32-1 (R53, R61). -/
def fitsU32 (v : Nat) : Bool := decide (v < 2 ^ 32)

/-- Every operand of the command fits its field; colour, fill and sync always do (R58: every value of an operand
field is legal). -/
def Instr.wellFormed : Instr → Bool
  | .setpixel x y _ _ => fitsS16 x && fitsS16 y
  | .clear => true
  | .drawline x0 y0 x1 y1 _ _ => fitsS16 x0 && fitsS16 y0 && fitsS16 x1 && fitsS16 y1
  | .drawrect x y w h _ _ _ => fitsS16 x && fitsS16 y && fitsS16 w && fitsS16 h
  | .drawcircle cx cy r _ _ _ => fitsS16 cx && fitsS16 cy && fitsS16 r
  | .drawbitmap _ => true
  | .drawimage dx dy _ => fitsS16 dx && fitsS16 dy
  | .setsrc w h base => fitsU16 w && fitsU16 h && fitsU32 base
  | .flush => true
  | .flushdirty => true

end Sys2Proof
end

