-- ==== Sys2Proof/Decode.lean ====
section
/-! DEFINITION. Decoding a command word (R60), total on every 96-bit word and rejecting by name, then the encoder (R51, R52, R55). -/

namespace Sys2Proof

open Sys2Proof.Machine

/-- Why a word is illegal (R58). All three raise the same fault with the same FINFO (R60). -/
inductive DecodeError where
  /-- `rsv` is not zero (R57). -/
  | reservedNonzero
  /-- `op` is 0x00 or 0x0B..0xFF (R58). -/
  | undefinedOpcode
  /-- A must-be-zero field of the command's format is not zero (R57). -/
  | mustBeZeroNonzero
  deriving DecidableEq, Repr

/-- The ten defined opcodes (R55). -/
inductive Opcode where
  | setpixel | clear | drawline | drawrect | drawcircle | drawbitmap | drawimage | setsrc | flush | flushdirty
  deriving DecidableEq, Repr

/-- The eight operand formats (R52). -/
inductive Format where
  | P | L | R | C | B | I | S | N
  deriving DecidableEq, Repr

/-- The opcode map (R55). -/
def opcodeOf (op : BitVec 8) : Option Opcode :=
  match op.toNat with
  | 0x01 => some .setpixel
  | 0x02 => some .clear
  | 0x03 => some .drawline
  | 0x04 => some .drawrect
  | 0x05 => some .drawcircle
  | 0x06 => some .drawbitmap
  | 0x07 => some .drawimage
  | 0x08 => some .setsrc
  | 0x09 => some .flush
  | 0x0A => some .flushdirty
  | _ => none

/-- The opcode value of each command (R55). -/
def opcodeValue : Opcode → BitVec 8
  | .setpixel => 0x01
  | .clear => 0x02
  | .drawline => 0x03
  | .drawrect => 0x04
  | .drawcircle => 0x05
  | .drawbitmap => 0x06
  | .drawimage => 0x07
  | .setsrc => 0x08
  | .flush => 0x09
  | .flushdirty => 0x0A

/-- The operand format of each command (R52). -/
def formatOf : Opcode → Format
  | .setpixel => .P
  | .drawline => .L
  | .drawrect => .R
  | .drawcircle => .C
  | .drawbitmap => .B
  | .drawimage => .I
  | .setsrc => .S
  | .clear => .N
  | .flush => .N
  | .flushdirty => .N

/-- Every field that R52 shows as 0 in the format is 0 in the word (R57). -/
def mustBeZeroHolds : Format → CmdWord → Bool
  | .P, w => cField w == 0 && dField w == 0 && !fBit w
  | .L, w => !fBit w
  | .R, _ => true
  | .C, w => dField w == 0
  | .B, w => aField w == 0 && bField w == 0 && cField w == 0 && dField w == 0 && !fBit w && !cBit w
  | .I, w => cField w == 0 && dField w == 0 && !fBit w && !cBit w
  | .S, w => !fBit w && !cBit w && !sBit w
  | .N, w => aField w == 0 && bField w == 0 && cField w == 0 && dField w == 0 && !fBit w && !cBit w && !sBit w

/-- The command with its operands read as R52 and R53 say. -/
def operandsOf (o : Opcode) (w : CmdWord) : Instr :=
  match o with
  | .setpixel => .setpixel (s16 (aField w)) (s16 (bField w)) (colourOf (cBit w)) (sBit w)
  | .clear => .clear
  | .drawline => .drawline (s16 (aField w)) (s16 (bField w)) (s16 (cField w)) (s16 (dField w)) (colourOf (cBit w)) (sBit w)
  | .drawrect =>
    .drawrect (s16 (aField w)) (s16 (bField w)) (s16 (cField w)) (s16 (dField w)) (fillOf (fBit w)) (colourOf (cBit w)) (sBit w)
  | .drawcircle => .drawcircle (s16 (aField w)) (s16 (bField w)) (s16 (cField w)) (fillOf (fBit w)) (colourOf (cBit w)) (sBit w)
  | .drawbitmap => .drawbitmap (sBit w)
  | .drawimage => .drawimage (s16 (aField w)) (s16 (bField w)) (sBit w)
  | .setsrc => .setsrc (u16 (aField w)) (u16 (bField w)) (base32 (cField w) (dField w))
  | .flush => .flush
  | .flushdirty => .flushdirty

/-- The decode procedure, in the order of R60: `rsv`, opcode, must-be-zero fields. It reads no state but the word. -/
def decode (w : CmdWord) : Except DecodeError Instr :=
  if rsvField w ≠ 0 then .error .reservedNonzero
  else
    match opcodeOf (opField w) with
    | none => .error .undefinedOpcode
    | some o => if mustBeZeroHolds (formatOf o) w then .ok (operandsOf o w) else .error .mustBeZeroNonzero

/-- The command word of an instruction (R51, R52, R55). For a well-formed instruction no operand is truncated (R61). -/
def encode : Instr → CmdWord
  | .setpixel x y c s => packWord 0x01 false (colourBit c) s (toS16 x) (toS16 y) 0 0
  | .clear => packWord 0x02 false false false 0 0 0 0
  | .drawline x0 y0 x1 y1 c s => packWord 0x03 false (colourBit c) s (toS16 x0) (toS16 y0) (toS16 x1) (toS16 y1)
  | .drawrect x y w h f c s => packWord 0x04 (fillBit f) (colourBit c) s (toS16 x) (toS16 y) (toS16 w) (toS16 h)
  | .drawcircle cx cy r f c s => packWord 0x05 (fillBit f) (colourBit c) s (toS16 cx) (toS16 cy) (toS16 r) 0
  | .drawbitmap s => packWord 0x06 false false s 0 0 0 0
  | .drawimage dx dy s => packWord 0x07 false false s (toS16 dx) (toS16 dy) 0 0
  | .setsrc w h base => packWord 0x08 false false false (toU16 w) (toU16 h) (baseHi base) (baseLo base)
  | .flush => packWord 0x09 false false false 0 0 0 0
  | .flushdirty => packWord 0x0A false false false 0 0 0 0

/-- The 96-bit word whose low `nbits` bits are those of `w`, the bits above them zero. A command is ONE 96-bit word
on a port and has no byte order (R33 (d), R50), so bit 0 of `w` is bit 0 of the command word. -/
def tableWord (nbits w : Nat) : CmdWord := BitVec.ofNat 96 (w % 2 ^ nbits)

/-- What the decoder reads from a word numbered as `spec/opcode_table.json` numbers it; `none` where it refuses. -/
def decodeTableWord (nbits w : Nat) : Option Instr :=
  match decode (tableWord nbits w) with
  | .ok i => some i
  | .error _ => none

end Sys2Proof
end

