-- ==== Sys2Proof/Config.lean ====
section
/-! DEFINITION. Implementation parameters (R7) and the values the spec leaves free (U1, U2, U6). -/

namespace Sys2Proof

/-- The implementation parameters that the spec has a model take as arguments (R7, D30, G1). They are held in State,
where nothing writes them, so that a claim about every state is a claim about every value of them. -/
structure Params where
  /-- `POLL_MAX`, an integer of at least 1: the number of busy status reads after which the probe gives up (R7, R88). -/
  pollMax : Nat
  /-- `OPC_COLUMN_ADDR`: the display command value that opens a column window (R7, R90). -/
  opcColumn : Byte
  /-- `OPC_PAGE_ADDR`: the display command value that opens a page window (R7, R90). -/
  opcPage : Byte
  deriving DecidableEq, Repr

/-- One less than `POLL_MAX`, which the spec leaves OPEN (D30): no body, so nothing can be proved of it. Log 4. -/
opaque Config.pollMaxLessOne : Nat

/-- `POLL_MAX` of the machine after `State.reset`: open, at least 1 (R7, D30). Log 4. -/
def Config.pollMax : Nat := Config.pollMaxLessOne + 1

/-- `OPC_COLUMN_ADDR`, the spec's default. PRESUMED (G1: general knowledge of the SSD1306). Log 5. -/
def Config.opcColumnAddr : Byte := 0x21

/-- `OPC_PAGE_ADDR`, the spec's default. PRESUMED (G1: general knowledge of the SSD1306). Log 5. -/
def Config.opcPageAddr : Byte := 0x22

/-- The parameters of the machine after `State.reset` (R7). -/
def Config.params : Params := ⟨Config.pollMax, Config.opcColumnAddr, Config.opcPageAddr⟩

/-- `FB_RESET`: what framebuffer byte `k` holds after the `n`-th reset; any value, per byte, afresh at each reset
(U2, D24). No body: a free value. Log 2. -/
opaque Config.fbReset : (n k : Nat) → Byte

/-- The device's answer to the `n`-th `RX` call when the environment's list of answers says nothing about it: any
value, afresh at each read (U1, R43). No body: a free value. Log 3. -/
opaque Config.statusByte : (n : Nat) → Byte

/-- `FINFO` of a POLL_TIMEOUT whose `POLL_MAX` does not fit 32 bits, a value the spec does not state (R22, R103).
No body: a free value. Log 12. -/
opaque Config.finfoWide : (pollMax : Nat) → BitVec 32

/-- `CTRL_CMD`, the control byte before a command value (R7, R89). -/
def Config.ctrlCmd : Byte := 0x00

/-- `CTRL_DATA`, the control byte before data (R7, R89). -/
def Config.ctrlData : Byte := 0x40

end Sys2Proof
end

