-- ==== Sys2Proof/Machine/Flags.lean ====
section
/-! DEFINITION. The only status bits MFBP has (R15): the fault causes, their FINFO values (R22, R103) and the STATUS word (R23). -/

namespace Sys2Proof.Machine

/-- The four synchronous faults (R103). -/
inductive Cause where
  | configError
  | illegalCommand
  | pollTimeout
  | srcAccess
  deriving DecidableEq, Repr

/-- The cause codes of `STATUS.FCAUSE`; 0 means "no fault" (R22, R103). -/
def causeCode : Cause → BitVec 4
  | .configError => 1
  | .illegalCommand => 2
  | .pollTimeout => 3
  | .srcAccess => 4

/-- FINFO of CONFIG_ERROR: `{16'b0, CFG_H, CFG_W}` (R103). -/
def configErrorInfo (w h : Byte) : BitVec 32 := 0#16 ++ h ++ w

/-- FINFO of ILLEGAL_COMMAND: `{24'b0, op}` (R103). -/
def illegalInfo (op : BitVec 8) : BitVec 32 := 0#24 ++ op

/-- FINFO of POLL_TIMEOUT: `POLL_MAX` (R103); a free value where it does not fit the 32 bits of FINFO (log 12). -/
def pollTimeoutInfo (pollMax : Nat) : BitVec 32 :=
  if pollMax < 2 ^ 32 then BitVec.ofNat 32 pollMax else Config.finfoWide pollMax

/-- FINFO of SRC_ACCESS: the address modulo 2^32 (R40, R103). -/
def srcAccessInfo (addr : Nat) : BitVec 32 := BitVec.ofNat 32 addr

/-- The `STATUS` word of the read port: bit 0 = HALT, bits 7:4 = FCAUSE, other bits 0 (R23). -/
def statusWord (halt : Bool) (fcause : BitVec 4) : BitVec 32 := 0#24 ++ fcause ++ 0#3 ++ BitVec.ofBool halt

end Sys2Proof.Machine
end

