-- ==== Sys2Proof/Machine/Geometry.lean ====
section
/-! DEFINITION. The panel's geometry (R5, R17) and what a reset finds in the framebuffer and the dirty set (R27). -/

namespace Sys2Proof.Machine

/-- The supported pairs (W, H): "any other size is a configuration error" (R5, R119). -/
def supportedGeometry (w h : Byte) : Bool :=
  (w == 128 && h == 32) || (w == 128 && h == 64) || (w == 96 && h == 16)

/-- `L = W*H/8`, the framebuffer length in bytes (R5). For an unsupported pair the spec defines no `L`: log 11. -/
def fbLength (w h : Byte) : Nat := w.toNat * h.toNat / 8

/-- `PAGES = H/8` (R5). -/
def pageCount (h : Byte) : Nat := h.toNat / 8

/-- `W` when not supplied: 128 (R5, R27). -/
def defaultW : Byte := 128
/-- `H` when not supplied: 32 (R5, R27). -/
def defaultH : Byte := 32
/-- `BUS_ADDR` when not supplied: 0x3C (R6, R27). -/
def defaultAddr : Byte := 0x3C

/-- `FB` after the `n`-th reset: every byte unspecified (R27, U2). -/
def resetFramebuffer (n len : Nat) : List Byte := (List.range len).map (Config.fbReset n)

/-- `DIRTY` after reset: empty (R27). -/
def resetDirty (len : Nat) : List Bool := List.replicate len false

end Sys2Proof.Machine
end

