-- ==== Sys2Proof/Machine/State.lean ====
section
/-! DEFINITION. The state of MFBP and of what it talks to, the reasons a step can stop, and the state after reset. -/

namespace Sys2Proof.Machine

/-- Source memory (SRC space): the ADMITTED addresses with the bytes the host last stored there (R31, R40), a sparse
list in one canonical form (`Memory.wf`). -/
abbrev Memory := List Host.Cell

/-- What an address that is not listed reads as: nothing, the platform does not admit the read (R40, U11). Log 1. -/
def Memory.unlisted : Option Byte := none

/-- The addresses of the list rise strictly, start at `lo` or above, and lie below 2^32 (R29). -/
def Memory.risesFrom : Nat → Memory → Bool
  | _, [] => true
  | lo, c :: m => decide (lo ≤ c.1) && decide (c.1 < 2 ^ 32) && Memory.risesFrom (c.1 + 1) m

/-- The canonical form: addresses strictly rising, inside the address space. No entry equals what an unlisted address
reads as, since that is no byte at all. -/
def Memory.wf (m : Memory) : Bool := Memory.risesFrom 0 m

/-- A Transport event (R43). `addr` is the address handed to the call, `BUS_ADDR` (R6); the rest is the spec's
`TX(bytes)` and `RX(byte)`. -/
inductive Event where
  | tx (addr : Byte) (bytes : List Byte)
  | rx (addr : Byte) (answer : Byte)
  deriving DecidableEq, Repr

/-- The construction inputs that a reset latches, each with its default when not supplied (R118, R27). DESIGN CHOICE:
`w` and `h` are bytes, the width of `CFG_W` and `CFG_H` (R17); the spec gives the inputs themselves no width. Log 22. -/
structure Construction where
  w : Option Byte
  h : Option Byte
  busAddr : Option Byte
  deriving DecidableEq, Repr

/-- A byte the host stores into source memory while a command runs (R41). `seen` is the environment's choice: the
command's read of that byte returns the new value (`true`) or the old one (`false`). Log 10. -/
structure RacingStore where
  addr : BitVec 32
  v : Byte
  seen : Bool
  deriving DecidableEq, Repr

/-- What the host can do to MFBP (R14, R118, R31, R41). Reading (R23) has no effect and is the function
`readPort`. -/
inductive HostAction where
  /-- Present a command word on the command port (R50), storing these bytes into source memory while the command runs
  (R41); an undisturbed command has none. -/
  | command (w : CmdWord) (during : List RacingStore)
  /-- Reset the block with these construction inputs (R118). -/
  | reset (inputs : Construction)
  /-- Store a byte into source memory between two commands (R31, R40). -/
  | store (addr : BitVec 32) (v : Byte)
  deriving DecidableEq, Repr

/-- The state. Reset values: R27, `State.construct`. -/
structure State where
  /-- `CFG_W` (R17). -/
  cfgW : Byte
  /-- `CFG_H` (R17). -/
  cfgH : Byte
  /-- `CFG_ADDR` = `BUS_ADDR` (R17, R6). -/
  cfgAddr : Byte
  /-- `FB`, byte `k` at list position `k` (R18). -/
  fb : List Byte
  /-- `DIRTY`, bit `k` at list position `k` (R20). -/
  dirty : List Bool
  /-- `SRC_BASE` (R21). -/
  srcBase : BitVec 32
  /-- `SRC_W` (R21). -/
  srcW : BitVec 16
  /-- `SRC_H` (R21). -/
  srcH : BitVec 16
  /-- `STATUS.HALT` (R22). -/
  halt : Bool
  /-- `STATUS.FCAUSE` (R22). -/
  fcause : BitVec 4
  /-- `FINFO` (R22). -/
  finfo : BitVec 32
  /-- The transport trace since reset, oldest event first (R25 (c), R43). -/
  trace : List Event
  /-- The command index `ci`: how many commands have been executed since reset (R14). -/
  ci : Nat
  /-- The implementation parameters (R7); nothing writes them. -/
  params : Params
  /-- Source memory: the admitted addresses and their bytes (R31, R40). MFBP only reads it. -/
  src : Memory
  /-- What the host does next, first action first (R14). -/
  host : List HostAction
  /-- The status bytes the device answers next, first answer first; after them each answer is free (R43, U1). Log 3. -/
  rxIn : List Byte
  /-- MODEL'S OWN: how many `RX` calls have been made; names the next free status byte. Log 3. -/
  rxCount : Nat
  /-- MODEL'S OWN: how many resets there have been; names the free framebuffer contents. Log 2. -/
  resets : Nat
  deriving DecidableEq, Repr

/-- Why a step stops. -/
inductive Fault where
  /-- Raised by `step` when the block is halted (R22) and the host offers no reset and no store to source memory: "the
  halted state has no successor but reset" (U12, R106). The four faults of R103 do not end in this: their entry is a
  next state (log 6). Safe: the spec gives such a block no further step. -/
  | halted (cause : BitVec 4) (info : BitVec 32)
  deriving DecidableEq, Repr

/-- Why an instruction has no meaning. -/
inductive Refusal where
  /-- Raised by `exec` for an instruction that has no meaning yet; no arm of this model raises it. Safe. -/
  | notModelled (mnemonic : String)
  deriving DecidableEq, Repr

/-- Reset = construction (R118, R27): latch the configuration, check the geometry (R119), and put every piece of
MFBP's state at its reset value. `n` is which reset this is (it names the unspecified framebuffer contents); the last
four arguments are what a reset does not touch: the parameters and what belongs to the host and the device (log 8). -/
def State.construct (inputs : Construction) (n : Nat) (params : Params) (src : Memory) (host : List HostAction)
    (rxIn : List Byte) (rxCount : Nat) : State :=
  let w := inputs.w.getD defaultW
  let h := inputs.h.getD defaultH
  let ok := supportedGeometry w h
  { cfgW := w
    cfgH := h
    cfgAddr := inputs.busAddr.getD defaultAddr
    fb := resetFramebuffer n (fbLength w h)
    dirty := resetDirty (fbLength w h)
    srcBase := 0
    srcW := 0
    srcH := 0
    halt := !ok
    fcause := if ok then 0 else causeCode .configError
    finfo := if ok then 0 else configErrorInfo w h
    trace := []
    ci := 0
    params := params
    src := src
    host := host
    rxIn := rxIn
    rxCount := rxCount
    resets := n }

/-- The machine right after reset with no construction input supplied: 128 by 32, bus address 0x3C (R27). Nothing is
pending at the command port, no source address is admitted and nothing is fixed about the device's answers. -/
def State.reset : State := State.construct ⟨none, none, none⟩ 0 Config.params [] [] [] 0

/-- `W` (R5). -/
def State.W (s : State) : Nat := s.cfgW.toNat
/-- `H` (R5). -/
def State.H (s : State) : Nat := s.cfgH.toNat
/-- `L = W*H/8` (R5). -/
def State.L (s : State) : Nat := fbLength s.cfgW s.cfgH
/-- `PAGES = H/8` (R5). -/
def State.pages (s : State) : Nat := pageCount s.cfgH

end Sys2Proof.Machine
end

