-- ==== Sys2Proof/Machine/Ops.lean ====
section
/-! DEFINITION. The named operations over framebuffer, dirty set, source memory and Transport; fault entry; reset; the command port; the read port. -/

namespace Sys2Proof.Machine

/-- How a part of a command's pseudocode ends: it goes on, or a fault has been raised and the command is abandoned
(R105: "no later line of its pseudocode runs, the sync tail included"). -/
inductive Flow where
  | go (s : State)
  | abandoned (s : State)
  deriving DecidableEq, Repr

/-- The state in which the part ended. -/
def Flow.state : Flow → State
  | .go s => s
  | .abandoned s => s

/-- The next part of the pseudocode, which runs only if no fault has been raised (R105). -/
def Flow.andThen (r : Flow) (k : State → Flow) : Flow :=
  match r with
  | .go s => k s
  | .abandoned s => .abandoned s

/-- A command's outcome: a next state, halted when a fault was raised (R105, log 6). -/
def finish (r : Flow) : Host.Outcome State Fault Refusal := .next r.state

/-! ### Fault entry (R105) -/

/-- The writes of `raise Fault(code, info)`: FCAUSE, FINFO and HALT; nothing else is saved or changed (R105). -/
def enterFault (cause : Cause) (info : BitVec 32) (s : State) : State :=
  { s with fcause := causeCode cause, finfo := info, halt := true }

/-- `raise Fault(code, info)`: the entry, and the command is abandoned (R105). There is no return from it but reset
(R107: `hostReset`). -/
def raiseFault (cause : Cause) (info : BitVec 32) (s : State) : Flow := .abandoned (enterFault cause info s)

/-! ### Framebuffer and dirty set (R18 to R20) -/

/-- `FB[k]` (R10). -/
def fbAt (s : State) (k : Nat) : Byte := s.fb.getD k 0

/-- `DIRTY[k]` (R10). -/
def dirtyAt (s : State) (k : Nat) : Bool := s.dirty.getD k false

/-- `DCOUNT`: the number of set dirty bits (R20). -/
def dcount (s : State) : Nat := s.dirty.count true

/-- `FB[k] <- v; DIRTY[k] <- 1`: the two writes every drawing command makes together (R64, R85). -/
def writeByte (k : Nat) (v : Byte) (s : State) : State :=
  { s with fb := s.fb.set k v, dirty := s.dirty.set k true }

/-- `for k in 0 .. L-1: DIRTY[k] <- 0` (R91, R95). -/
def clearDirty (s : State) : State := { s with dirty := List.replicate s.L false }

/-- `for k in 0 .. L-1: FB[k] <- 0` (R67). -/
def zeroFramebuffer (s : State) : State := { s with fb := List.replicate s.L 0 }

/-- `0 ≤ x < W` and `0 ≤ y < H`, on the mathematical values (R64, R65 (f)). -/
def onPanel (s : State) (x y : Int) : Bool :=
  decide (0 ≤ x) && decide (x < s.W) && decide (0 ≤ y) && decide (y < s.H)

/-- The byte that holds the pixel at column `x`, row `y`: `x + W*(y div 8)` (R19). -/
def byteIndex (s : State) (x y : Nat) : Nat := x + s.W * (y / 8)

/-- `1 << (y mod 8)` (R64). -/
def bitMask (y : Nat) : Byte := 1#8 <<< (y % 8)

/-- SET ORs the mask in, CLEAR ANDs its complement in (R64). -/
def paintByte (c : Colour) (m old : Byte) : Byte :=
  match c with
  | .set => old ||| m
  | .clear => old &&& ~~~m

/-- The pixel write primitive `SetPixel(x, y, c)` (R64). Off the panel nothing happens; on the panel the byte is marked
dirty whether or not its value changes (C2). -/
def setPixel (c : Colour) (x y : Int) (s : State) : State :=
  if onPanel s x y then
    let k := byteIndex s x.toNat y.toNat
    writeByte k (paintByte c (bitMask y.toNat) (fbAt s k)) s
  else s

/-- `SetPixel` on each point in turn, in one colour. -/
def setPixels (c : Colour) (ps : List (Int × Int)) (s : State) : State :=
  ps.foldl (fun t p => setPixel c p.1 p.2 t) s

/-! ### Source memory (R29, R39, R40) -/

/-- The byte at an admitted address; nothing at any other. -/
def Memory.read : Memory → Nat → Option Byte
  | [], _ => Memory.unlisted
  | c :: m, a => if c.1 = a then some c.2 else Memory.read m a

/-- The host stores a byte at an admitted address; which addresses are admitted does not change (R31, U11, log 13). -/
def Memory.store (m : Memory) (a : Nat) (v : Byte) : Memory :=
  m.map fun c => if c.1 = a then (c.1, v) else c

/-- `MemRead(addr, 1)` (R40): the byte, or the refused address. The address is exact, it does not wrap (R39). -/
def memRead (s : State) (addr : Nat) : Except Nat Byte :=
  if 2 ^ 32 ≤ addr then .error addr
  else
    match Memory.read s.src addr with
    | some b => .ok b
    | none => .error addr

/-- The fault of a refused read (R40, R103). -/
def raiseSrcAccess (addr : Nat) (s : State) : Flow := raiseFault .srcAccess (srcAccessInfo addr) s

/-! ### Transport (R43) -/

/-- The answer to the `i`-th of the `RX` calls to come (the first is number 0): the environment's, or a free value
(R43, U1, log 3). -/
def statusAt (s : State) (i : Nat) : Byte :=
  match s.rxIn[i]? with
  | some b => b
  | none => Config.statusByte (s.rxCount + i)

/-- `RX()`: one status byte is read from `BUS_ADDR` and recorded (R43). -/
def receive (s : State) : State :=
  { s with trace := s.trace ++ [.rx s.cfgAddr (statusAt s 0)], rxIn := s.rxIn.drop 1, rxCount := s.rxCount + 1 }

/-- `TX(bytes)` for each burst in turn, to `BUS_ADDR`; the returned count is ignored (R43, R44). -/
def transmit (bursts : List (List Byte)) (s : State) : State :=
  { s with trace := s.trace ++ bursts.map (.tx s.cfgAddr) }

/-! ### The host's side (R14, R23, R118) -/

/-- Reset by the host, at any time: the only way out of the halted state (R107, R118). What belongs to the host and
the device stays (log 8). -/
def hostReset (inputs : Construction) (s : State) : State :=
  State.construct inputs (s.resets + 1) s.params s.src s.host s.rxIn s.rxCount

/-- The host stores a byte into source memory, between commands (R31). -/
def hostStore (addr : BitVec 32) (v : Byte) (s : State) : State :=
  { s with src := Memory.store s.src addr.toNat v }

/-- Stores by the host, in order. -/
def Memory.storeAll (m : Memory) (l : List RacingStore) : Memory :=
  l.foldl (fun m r => Memory.store m r.addr.toNat r.v) m

/-- Source memory as a command finds it that runs while the host stores `during`: at each byte the old or the new
value, as the environment chose for the read of that byte (R41, U4, log 10). -/
def racingView (during : List RacingStore) (s : State) : State :=
  { s with src := Memory.storeAll s.src (during.filter fun r => r.seen) }

/-- The state `t` in which that command ended, with all the host's stores landed in the memory `m` it began with
(R41, R31). -/
def landStores (during : List RacingStore) (m : Memory) (t : State) : State :=
  { t with src := Memory.storeAll m during }

/-- What is left to the host after its first action. -/
def hostRest (s : State) : State := { s with host := s.host.drop 1 }

/-- The entry of ILLEGAL_COMMAND for the word `w` (R58, R60). -/
def illegalCommand (w : CmdWord) (s : State) : State := enterFault .illegalCommand (illegalInfo (opField w)) s

/-- `ci <- ci + 1` after a command; a faulting command is not counted (R14, R105). -/
def retire (s : State) : State := if s.halt then s else { s with ci := s.ci + 1 }

/-- The fault with which a halted block's step stops (R106). -/
def haltedFault (s : State) : Fault := .halted s.fcause s.finfo

/-- The value at an address of the host read port, 32 bits, unused high bits zero; no side effect (R23). -/
def readPort (s : State) (addr : Nat) : BitVec 32 :=
  if addr = 0x0000 then 0#8 ++ s.cfgAddr ++ s.cfgH ++ s.cfgW
  else if addr = 0x0001 then statusWord s.halt s.fcause
  else if addr = 0x0002 then s.finfo
  else if addr = 0x0003 then BitVec.ofNat 32 (dcount s)
  else if addr = 0x0004 then s.srcBase
  else if addr = 0x0005 then s.srcH ++ s.srcW
  else if 0x1000 ≤ addr ∧ addr - 0x1000 < s.L then (fbAt s (addr - 0x1000)).setWidth 32
  else if 0x2000 ≤ addr ∧ addr - 0x2000 < s.L then (BitVec.ofBool (dirtyAt s (addr - 0x2000))).setWidth 32
  else 0

end Sys2Proof.Machine
end

