-- ==== Sys2Proof/Machine/Refresh.lean ====
section
/-! DEFINITION. The readiness probe, the bursts, both refreshes, the decision between them and the sync tail (R88 to R97). -/

namespace Sys2Proof.Machine

/-- Bit 7 of a status byte clear: the device is ready (R88). -/
def ready (b : Byte) : Bool := !b.getLsbD 7

/-- The loop of `Poll()` with `n` attempts left (R88); `yield` changes nothing (U7). -/
def pollLoop : (n : Nat) → State → Flow
  | 0, s => raiseFault .pollTimeout (pollTimeoutInfo s.params.pollMax) s
  | n + 1, s => if ready (statusAt s 0) then .go (receive s) else pollLoop n (receive s)

/-- `Poll()`: at most `POLL_MAX` status reads (R88). -/
def poll (s : State) : Flow := pollLoop s.params.pollMax s

/-- `CmdValue(v)`: one call, the control byte and the command value (R89). -/
def cmdValue (v : Byte) : List Byte := [Config.ctrlCmd, v]

/-- `Data(bytes)`: one call, one data marker and all the bytes (R89, C3). -/
def dataBurst (bytes : List Byte) : List Byte := Config.ctrlData :: bytes

/-- `Window(c0, c1, p0, p1)`: six calls (R90). -/
def window (p : Params) (c0 c1 p0 p1 : Nat) : List (List Byte) :=
  [cmdValue p.opcColumn, cmdValue (BitVec.ofNat 8 c0), cmdValue (BitVec.ofNat 8 c1),
   cmdValue p.opcPage, cmdValue (BitVec.ofNat 8 p0), cmdValue (BitVec.ofNat 8 p1)]

/-- The bursts of a full refresh: the window of the whole buffer, then the whole buffer (R91). -/
def fullBursts (s : State) : List (List Byte) :=
  window s.params 0 (s.W - 1) 0 (s.pages - 1) ++ [dataBurst ((List.range s.L).map (fbAt s))]

/-- The bursts of one byte of a partial refresh: its own window, then the byte (R94). -/
def byteBursts (s : State) (k : Nat) : List (List Byte) :=
  window s.params (k % s.W) (k % s.W) (k / s.W) (k / s.W) ++ [dataBurst [fbAt s k]]

/-- The bursts of a partial refresh: the dirty bytes, ascending (R94, D22). -/
def partialBursts (s : State) : List (List Byte) :=
  (List.range s.L).flatMap fun k => if dirtyAt s k then byteBursts s k else []

/-- `FullRefresh()` (R91). -/
def fullRefresh (s : State) : Flow := (poll s).andThen fun t => .go (clearDirty (transmit (fullBursts t) t))

/-- `PartialRefresh()` (R94): one probe, also when nothing is dirty (D31). -/
def partialRefresh (s : State) : Flow := (poll s).andThen fun t => .go (transmit (partialBursts t) t)

/-- The refresh-cost decision: full exactly when `7*n > L` (R93, C1). -/
def prefersFull (s : State) : Bool := decide (7 * dcount s > s.L)

/-- `FlushDirty()`: the decision on entry, the refresh, then the dirty set is emptied in both branches (R95). -/
def flushDirty (s : State) : Flow :=
  (if prefersFull s then fullRefresh s else partialRefresh s).andThen fun t => .go (clearDirty t)

/-- `SyncTail(S)`: `FlushDirty()` when `S = 1`, whether or not the command changed anything (R97, D34). -/
def syncTail (sync : Bool) (s : State) : Flow := if sync then flushDirty s else .go s

end Sys2Proof.Machine
end

