-- ==== Sys2Proof/Machine/Framebuffer.lean ====
section
/-! DEFINITION. The framebuffer commands SETPIXEL (R66) and CLEAR (R67). -/

namespace Sys2Proof.Machine

/-- SETPIXEL x, y, C, S (R66). -/
def execSetpixel (x y : Int) (c : Colour) (sync : Bool) (s : State) : Host.Outcome State Fault Refusal :=
  finish (syncTail sync (setPixel c x y s))

/-- CLEAR (R67): zero-fills FB; DIRTY is not changed, nothing is sent (C4, D23). -/
def execClear (s : State) : Host.Outcome State Fault Refusal :=
  finish (.go (zeroFramebuffer s))

end Sys2Proof.Machine
end

