-- ==== Sys2Proof/Machine/Image.lean ====
section
/-! DEFINITION. The bitmap and image commands SETSRC (R81), DRAWBITMAP (R83) and DRAWIMAGE (R86). -/

namespace Sys2Proof.Machine

/-- SETSRC base, w, h (R81). -/
def execSetsrc (w h base : Nat) (s : State) : Host.Outcome State Fault Refusal :=
  finish (.go { s with srcBase := BitVec.ofNat 32 base, srcW := BitVec.ofNat 16 w, srcH := BitVec.ofNat 16 h })

/-- A bitmap sample: 0 means CLEAR, any other value SET (R82). -/
def sampleColour (v : Byte) : Colour := if v = 0 then .clear else .set

/-- The address of bitmap sample `i`: `SRC_BASE + i`, exact (R33 (b), R39). -/
def sampleAddr (s : State) (i : Nat) : Nat := s.srcBase.toNat + i

/-- The sample loop of DRAWBITMAP over the sample numbers still to do (R83). -/
def bitmapLoop : List Nat → State → Flow
  | [], s => .go s
  | i :: rest, s =>
    match memRead s (sampleAddr s i) with
    | .error addr => raiseSrcAccess addr s
    | .ok v => bitmapLoop rest (setPixel (sampleColour v) (i % s.W : Nat) (i / s.W : Nat) s)

/-- DRAWBITMAP S (R83). -/
def execDrawbitmap (sync : Bool) (s : State) : Host.Outcome State Fault Refusal :=
  finish ((bitmapLoop (List.range (s.W * s.H)) s).andThen (syncTail sync))

/-- `NewBit(old_bit, R, G, B, A)` (R84). -/
def newBit (old : Bool) (r g b a : Byte) : Bool :=
  if a = 0 then old else decide (r ||| g ||| b ≠ 0)

/-- The address of the R byte of the image pixel at column `ix`, row `iy`, exact (R33 (a), R39). -/
def pixelAddr (s : State) (ix iy : Nat) : Nat := s.srcBase.toNat + 4 * (iy * s.srcW.toNat + ix)

/-- The four reads of an image pixel, R, G, B, A in this order, then `NewBit` (R86, D20). -/
def imagePixel (s : State) (ix iy : Nat) (old : Bool) : Except Nat Bool :=
  match memRead s (pixelAddr s ix iy) with
  | .error addr => .error addr
  | .ok r =>
    match memRead s (pixelAddr s ix iy + 1) with
    | .error addr => .error addr
    | .ok g =>
      match memRead s (pixelAddr s ix iy + 2) with
      | .error addr => .error addr
      | .ok b =>
        match memRead s (pixelAddr s ix iy + 3) with
        | .error addr => .error addr
        | .ok a => .ok (newBit old r g b a)

/-- The image has a pixel at column `ix`, row `iy` (R86). -/
def inImage (s : State) (ix iy : Int) : Bool :=
  decide (0 ≤ ix) && decide (ix < s.srcW.toNat) && decide (0 ≤ iy) && decide (iy < s.srcH.toNat)

/-- `v[j] <- b` (R8). -/
def setBit (v : Byte) (j : Nat) (b : Bool) : Byte :=
  if b then v ||| (1#8 <<< j) else v &&& ~~~(1#8 <<< j)

/-- The bit loop of DRAWIMAGE for byte `k` over the bits still to do, `new` so far (R86). -/
def imageBits (s : State) (dx dy : Int) (k : Nat) : List Nat → Byte → Except Nat Byte
  | [], new => .ok new
  | j :: rest, new =>
    let ix : Int := (k % s.W : Nat) - dx
    let iy : Int := (8 * (k / s.W) + j : Nat) - dy
    if inImage s ix iy then
      match imagePixel s ix.toNat iy.toNat (new.getLsbD j) with
      | .error addr => .error addr
      | .ok b => imageBits s dx dy k rest (setBit new j b)
    else imageBits s dx dy k rest new

/-- The byte commit (R85): only a changed byte is written and marked dirty. -/
def commitByte (k : Nat) (new : Byte) (s : State) : State := if new = fbAt s k then s else writeByte k new s

/-- The byte loop of DRAWIMAGE over the byte indices still to do (R86). -/
def imageLoop (dx dy : Int) : List Nat → State → Flow
  | [], s => .go s
  | k :: rest, s =>
    match imageBits s dx dy k (List.range 8) (fbAt s k) with
    | .error addr => raiseSrcAccess addr s
    | .ok new => imageLoop dx dy rest (commitByte k new s)

/-- DRAWIMAGE dx, dy, S (R86). -/
def execDrawimage (dx dy : Int) (sync : Bool) (s : State) : Host.Outcome State Fault Refusal :=
  finish ((imageLoop dx dy (List.range s.L) s).andThen (syncTail sync))

end Sys2Proof.Machine
end

