-- ==== Sys2Proof/Machine/Raster.lean ====
section
/-! DEFINITION. The rasterizer's geometry (R69 to R79): the points of a line, a rectangle and a circle, and drawing them. -/

namespace Sys2Proof.Machine

/-- The loop of `Line` (R70): `fuel` bounds its iterations, `dx`, `dy` are the absolute differences, `(x, y)` the
current point. Log 15: the bound is never what ends it. -/
def lineLoop (dx dy sx sy x1 y1 : Int) : (fuel : Nat) → (x y err : Int) → List (Int × Int)
  | 0, _, _, _ => []
  | fuel + 1, x, y, err =>
    if x = x1 ∧ y = y1 then [(x, y)]
    else
      let stepX := decide (err > -dx)
      let stepY := decide (err < dy)
      let err' := (if stepX then err - dy else err) + (if stepY then dx else 0)
      (x, y) :: lineLoop dx dy sx sy x1 y1 fuel (if stepX then x + sx else x) (if stepY then y + sy else y) err'

/-- The initial error term: `tdiv2((dx > dy) ? dx : -dy)` (R70). -/
def lineErr0 (dx dy : Int) : Int := tdiv2 (if dx > dy then dx else -dy)

/-- The step sign of `Line` from `p` to `q`: `(p < q) ? +1 : -1` (R70). -/
def stepSign (p q : Int) : Int := if p < q then 1 else -1

/-- The points on which `Line(x0, y0, x1, y1, c)` calls `SetPixel`, in order (R70). -/
def linePoints (x0 y0 x1 y1 : Int) : List (Int × Int) :=
  let dx := absDiff x0 x1
  let dy := absDiff y0 y1
  lineLoop dx dy (stepSign x0 x1) (stepSign y0 y1) x1 y1 (max dx dy + 1) x0 y0 (lineErr0 dx dy)

/-- `Line(x0, y0, x1, y1, c)` (R70). -/
def line (c : Colour) (x0 y0 x1 y1 : Int) (s : State) : State := setPixels c (linePoints x0 y0 x1 y1) s

/-- `RectSolid(x, y, w, h, c)`: `w` vertical lines of height `h` (R73). -/
def rectSolid (c : Colour) (x y w h : Int) (s : State) : State :=
  (List.range w.toNat).foldl (fun t i => line c (x + i) y (x + i) (y + h - 1) t) s

/-- `RectOutline(x, y, w, h, c)`: top, bottom, left, right edge (R74). -/
def rectOutline (c : Colour) (x y w h : Int) (s : State) : State :=
  let top := line c x y (x + w - 1) y s
  let bottom := line c x (y + h - 1) (x + w - 1) (y + h - 1) top
  let left := line c x y x (y + h - 1) bottom
  line c (x + w - 1) y (x + w - 1) (y + h - 1) left

/-- The drawing of DRAWRECT: nothing when `w ≤ 0` or `h ≤ 0` (R75, R76). -/
def rect (f : Fill) (c : Colour) (x y w h : Int) (s : State) : State :=
  if 1 ≤ w ∧ 1 ≤ h then
    match f with
    | .solid => rectSolid c x y w h s
    | .outline => rectOutline c x y w h s
  else s

/-- The loop of `CircleWalk` (R77): `fuel` bounds its iterations. Log 15: the bound is never what ends it. -/
def circleLoop : (fuel : Nat) → (x y d : Int) → List (Int × Int)
  | 0, _, _, _ => []
  | fuel + 1, x, y, d =>
    if y ≤ x then
      (x, y) ::
        (if d < 0 then circleLoop fuel x (y + 1) (d + 2 * (y + 1) + 1)
         else circleLoop fuel (x - 1) (y + 1) (d + 2 * (y + 1) - 2 * (x - 1) + 1))
    else []

/-- The steps `(x, y)` that `CircleWalk(r, emit)` emits, in order (R77). -/
def circleWalk (r : Int) : List (Int × Int) := circleLoop (r.toNat + 1) r 0 (1 - r)

/-- The eight points of one step of an outline circle (R78). -/
def circlePoints (cx cy : Int) (p : Int × Int) : List (Int × Int) :=
  [(cx + p.1, cy + p.2), (cx + p.2, cy + p.1),
   (cx - p.1, cy + p.2), (cx - p.2, cy + p.1),
   (cx - p.1, cy - p.2), (cx - p.2, cy - p.1),
   (cx + p.1, cy - p.2), (cx + p.2, cy - p.1)]

/-- The four horizontal spans of one step of a solid circle, each drawn by `Line` (R79). -/
def circleSpans (c : Colour) (cx cy : Int) (p : Int × Int) (s : State) : State :=
  let s1 := line c (cx - p.1) (cy + p.2) (cx + p.1) (cy + p.2) s
  let s2 := line c (cx - p.1) (cy - p.2) (cx + p.1) (cy - p.2) s1
  let s3 := line c (cx - p.2) (cy + p.1) (cx + p.2) (cy + p.1) s2
  line c (cx - p.2) (cy - p.1) (cx + p.2) (cy - p.1) s3

/-- The drawing of DRAWCIRCLE (R80). -/
def circle (f : Fill) (c : Colour) (cx cy r : Int) (s : State) : State :=
  match f with
  | .outline => (circleWalk r).foldl (fun t p => setPixels c (circlePoints cx cy p) t) s
  | .solid => (circleWalk r).foldl (fun t p => circleSpans c cx cy p t) s

end Sys2Proof.Machine
end

