-- ==== Sys2Proof/Machine/Rasterizer.lean ====
section
/-! DEFINITION. The rasterizer commands DRAWLINE (R72), DRAWRECT (R76) and DRAWCIRCLE (R80). -/

namespace Sys2Proof.Machine

/-- DRAWLINE x0, y0, x1, y1, C, S (R72). -/
def execDrawline (x0 y0 x1 y1 : Int) (c : Colour) (sync : Bool) (s : State) : Host.Outcome State Fault Refusal :=
  finish (syncTail sync (line c x0 y0 x1 y1 s))

/-- DRAWRECT x, y, w, h, F, C, S (R76). -/
def execDrawrect (x y w h : Int) (f : Fill) (c : Colour) (sync : Bool) (s : State) :
    Host.Outcome State Fault Refusal :=
  finish (syncTail sync (rect f c x y w h s))

/-- DRAWCIRCLE cx, cy, r, F, C, S (R80). -/
def execDrawcircle (cx cy r : Int) (f : Fill) (c : Colour) (sync : Bool) (s : State) :
    Host.Outcome State Fault Refusal :=
  finish (syncTail sync (circle f c cx cy r s))

end Sys2Proof.Machine
end

