-- ==== Sys2Proof/Machine/Update.lean ====
section
/-! DEFINITION. The update commands FLUSH (R92) and FLUSHDIRTY (R96). -/

namespace Sys2Proof.Machine

/-- FLUSH (R92). -/
def execFlush (s : State) : Host.Outcome State Fault Refusal := finish (fullRefresh s)

/-- FLUSHDIRTY (R96). -/
def execFlushdirty (s : State) : Host.Outcome State Fault Refusal := finish (flushDirty s)

end Sys2Proof.Machine
end

