-- ==== Sys2Proof/Machine/Dispatch.lean ====
section
/-! DEFINITION. The dispatch on a decoded command (R60): one arm per command. -/

namespace Sys2Proof.Machine

def exec (i : Instr) (s : State) : Host.Outcome State Fault Refusal :=
  match i with
  | .setpixel x y c sync => Sys2Proof.Machine.execSetpixel x y c sync s
  | .clear => Sys2Proof.Machine.execClear s
  | .drawline x0 y0 x1 y1 c sync => Sys2Proof.Machine.execDrawline x0 y0 x1 y1 c sync s
  | .drawrect x y w h f c sync => Sys2Proof.Machine.execDrawrect x y w h f c sync s
  | .drawcircle cx cy r f c sync => Sys2Proof.Machine.execDrawcircle cx cy r f c sync s
  | .drawbitmap sync => Sys2Proof.Machine.execDrawbitmap sync s
  | .drawimage dx dy sync => Sys2Proof.Machine.execDrawimage dx dy sync s
  | .setsrc w h base => Sys2Proof.Machine.execSetsrc w h base s
  | .flush => Sys2Proof.Machine.execFlush s
  | .flushdirty => Sys2Proof.Machine.execFlushdirty s

end Sys2Proof.Machine
end

