-- ==== Sys2Proof/Machine/Step.lean ====
section
/-! DEFINITION. One step of the machine: the next thing the host does, and a command executed to completion (R14). -/

namespace Sys2Proof.Machine

/-- An accepted command word: decode it, execute the command's rule, count it (R14, R60). Meanwhile the host stores
`during` into source memory (R41). -/
def runCommand (w : CmdWord) (during : List RacingStore) (s : State) : Host.Outcome State Fault Refusal :=
  match decode w with
  | .error _ => .next (landStores during s.src (illegalCommand w s))
  | .ok i =>
    match exec i (racingView during s) with
    | .next t => .next (landStores during s.src (retire t))
    | .fault r => .fault r
    | .refused r => .refused r

/-- One step (R14). A halted block accepts no command and has no further step but a reset (R106, U12); an idle block
with nothing presented waits, and nothing changes (R14, R117). -/
def step (s : State) : Host.Outcome State Fault Refusal :=
  match s.host with
  | [] => if s.halt then .fault (haltedFault s) else .next s
  | .reset inputs :: _ => .next (hostReset inputs (hostRest s))
  | .store addr v :: _ => .next (hostStore addr v (hostRest s))
  | .command w during :: _ => if s.halt then .fault (haltedFault s) else runCommand w during (hostRest s)

/-- The state with the given command word presented next on the command port, so that the very next step runs it. -/
def State.withFetchWord (s : State) (nbits w : Nat) : State :=
  { s with host := .command (tableWord nbits w) [] :: s.host }

end Sys2Proof.Machine
end

