-- ==== Sys2Proof/Machine/Assembler.lean ====
section
/-! DEFINITION. The assembler syntax (R61): one line of assembly is exactly one command word (R62). -/

namespace Sys2Proof.Machine

/-- An operand or keyword of an assembly line (R61). -/
inductive AsmArg where
  | num (v : Int)
  | set
  | clear
  | solid
  | nosync
  deriving DecidableEq, Repr

/-- The colour keywords: `set` assembles `C = 1`, `clear` as a colour `C = 0` (R61). -/
def asmColour : AsmArg → Option Colour
  | .set => some .set
  | .clear => some .clear
  | _ => none

/-- `[, nosync]`: omitted means `S = 1` (R61). -/
def asmSync : List AsmArg → Option Bool
  | [] => some true
  | [.nosync] => some false
  | _ => none

/-- `[, solid] [, nosync]`: an omitted `solid` means `F = 0` (R61). -/
def asmFillSync : List AsmArg → Option (Fill × Bool)
  | .solid :: rest => (asmSync rest).map fun s => (.solid, s)
  | rest => (asmSync rest).map fun s => (.outline, s)

/-- The command a line stands for; none where the line is not of the command's form (R61). -/
def asmInstr (o : Opcode) (args : List AsmArg) : Option Instr :=
  match o, args with
  | .setpixel, .num x :: .num y :: c :: rest =>
    (asmColour c).bind fun c => (asmSync rest).map fun s => .setpixel x y c s
  | .clear, [] => some .clear
  | .drawline, .num x0 :: .num y0 :: .num x1 :: .num y1 :: c :: rest =>
    (asmColour c).bind fun c => (asmSync rest).map fun s => .drawline x0 y0 x1 y1 c s
  | .drawrect, .num x :: .num y :: .num w :: .num h :: c :: rest =>
    (asmColour c).bind fun c => (asmFillSync rest).map fun fs => .drawrect x y w h fs.1 c fs.2
  | .drawcircle, .num cx :: .num cy :: .num r :: c :: rest =>
    (asmColour c).bind fun c => (asmFillSync rest).map fun fs => .drawcircle cx cy r fs.1 c fs.2
  | .drawbitmap, rest => (asmSync rest).map .drawbitmap
  | .drawimage, .num dx :: .num dy :: rest => (asmSync rest).map fun s => .drawimage dx dy s
  | .setsrc, [.num base, .num w, .num h] =>
    if 0 ≤ base ∧ 0 ≤ w ∧ 0 ≤ h then some (.setsrc w.toNat h.toNat base.toNat) else none
  | .flush, [] => some .flush
  | .flushdirty, [] => some .flushdirty
  | _, _ => none

/-- Assemble a line: an operand that does not fit its field is an error, never truncated (R61). -/
def assemble (o : Opcode) (args : List AsmArg) : Option CmdWord :=
  (asmInstr o args).bind fun i => if i.wellFormed then some (encode i) else none

/-- The line that stands for a command (R61). -/
def sourceLine : Instr → Opcode × List AsmArg
  | .setpixel x y c s => (.setpixel, [.num x, .num y, col c] ++ syn s)
  | .clear => (.clear, [])
  | .drawline x0 y0 x1 y1 c s => (.drawline, [.num x0, .num y0, .num x1, .num y1, col c] ++ syn s)
  | .drawrect x y w h f c s => (.drawrect, [.num x, .num y, .num w, .num h, col c] ++ fil f ++ syn s)
  | .drawcircle cx cy r f c s => (.drawcircle, [.num cx, .num cy, .num r, col c] ++ fil f ++ syn s)
  | .drawbitmap s => (.drawbitmap, syn s)
  | .drawimage dx dy s => (.drawimage, [.num dx, .num dy] ++ syn s)
  | .setsrc w h base => (.setsrc, [.num base, .num w, .num h])
  | .flush => (.flush, [])
  | .flushdirty => (.flushdirty, [])
where
  col : Colour → AsmArg
    | .set => .set
    | .clear => .clear
  syn : Bool → List AsmArg
    | true => []
    | false => [.nosync]
  fil : Fill → List AsmArg
    | .solid => [.solid]
    | .outline => []

/-! ### The characters of a line: lower-case mnemonic, then operands separated by commas (R61) -/

/-- The value of a hexadecimal digit. -/
def hexDigit (c : Char) : Option Nat :=
  let n := c.toNat
  if 48 ≤ n ∧ n ≤ 57 then some (n - 48)
  else if 65 ≤ n ∧ n ≤ 70 then some (n - 55)
  else if 97 ≤ n ∧ n ≤ 102 then some (n - 87)
  else none

/-- The value of a digit string in a base, `acc` so far. -/
def digitsValue (base : Nat) : List Char → (acc : Nat) → Option Nat
  | [], acc => some acc
  | c :: rest, acc =>
    match hexDigit c with
    | some d => if d < base then digitsValue base rest (acc * base + d) else none
    | none => none

/-- A decimal or `0x` hexadecimal number of at least one digit (R61). -/
def asmNat : List Char → Option Nat
  | '0' :: 'x' :: d :: rest => digitsValue 16 (d :: rest) 0
  | [] => none
  | cs => digitsValue 10 cs 0

/-- An integer; a negative value takes a leading `-` (R61). -/
def asmInt : List Char → Option Int
  | '-' :: rest => (asmNat rest).map fun n => -(n : Int)
  | cs => (asmNat cs).map fun n => (n : Int)

/-- Spaces off both ends. -/
def trimSpaces (cs : List Char) : List Char :=
  ((cs.dropWhile (· == ' ')).reverse.dropWhile (· == ' ')).reverse

/-- One operand or keyword (R61). -/
def asmArgOf (cs : List Char) : Option AsmArg :=
  match trimSpaces cs with
  | ['s', 'e', 't'] => some .set
  | ['c', 'l', 'e', 'a', 'r'] => some .clear
  | ['s', 'o', 'l', 'i', 'd'] => some .solid
  | ['n', 'o', 's', 'y', 'n', 'c'] => some .nosync
  | cs => (asmInt cs).map .num

/-- The text between commas: the piece so far, then the rest. -/
def splitCommas : List Char → (piece : List Char) → List (List Char)
  | [], piece => [piece.reverse]
  | c :: rest, piece => if c == ',' then piece.reverse :: splitCommas rest [] else splitCommas rest (c :: piece)

/-- All the operands, or none if one of them is no operand. -/
def asmArgs : List (List Char) → Option (List AsmArg)
  | [] => some []
  | p :: rest => (asmArgOf p).bind fun a => (asmArgs rest).map fun as => a :: as

/-- The mnemonics (R61). -/
def mnemonics : List (List Char × Opcode) :=
  [(['s', 'e', 't', 'p', 'i', 'x', 'e', 'l'], .setpixel), (['c', 'l', 'e', 'a', 'r'], .clear),
   (['d', 'r', 'a', 'w', 'l', 'i', 'n', 'e'], .drawline), (['d', 'r', 'a', 'w', 'r', 'e', 'c', 't'], .drawrect),
   (['d', 'r', 'a', 'w', 'c', 'i', 'r', 'c', 'l', 'e'], .drawcircle),
   (['d', 'r', 'a', 'w', 'b', 'i', 't', 'm', 'a', 'p'], .drawbitmap),
   (['d', 'r', 'a', 'w', 'i', 'm', 'a', 'g', 'e'], .drawimage), (['s', 'e', 't', 's', 'r', 'c'], .setsrc),
   (['f', 'l', 'u', 's', 'h'], .flush), (['f', 'l', 'u', 's', 'h', 'd', 'i', 'r', 't', 'y'], .flushdirty)]

/-- A mnemonic's opcode. -/
def mnemonicOf (cs : List Char) : Option Opcode := (mnemonics.find? fun p => p.1 == cs).map (·.2)

/-- Assemble one line of text (R61, R62). -/
def assembleChars (line : List Char) : Option CmdWord :=
  let cs := trimSpaces line
  let name := cs.takeWhile (· != ' ')
  let rest := trimSpaces (cs.dropWhile (· != ' '))
  (mnemonicOf name).bind fun o =>
    (if rest.isEmpty then some [] else asmArgs (splitCommas rest [])).bind fun args => assemble o args

/-- Assemble one line of text (R61, R62). -/
def assembleText (line : String) : Option CmdWord := assembleChars line.toList

end Sys2Proof.Machine
end

