-- ==== Sys2Proof/Safety.lean ====
section
/-! DEFINITION. What counts as a sound state and a completed run, and the terms in which statements speak of pictures, probes and bursts. -/

namespace Sys2Proof

/-- The command runs a refresh: FLUSH, FLUSHDIRTY or a drawing command with `S = 1` (R97, R103). -/
def Instr.refreshes : Instr → Bool
  | .flush => true
  | .flushdirty => true
  | .setpixel _ _ _ s => s
  | .drawline _ _ _ _ _ s => s
  | .drawrect _ _ _ _ _ _ s => s
  | .drawcircle _ _ _ _ _ s => s
  | .drawbitmap s => s
  | .drawimage _ _ s => s
  | .clear => false
  | .setsrc _ _ _ => false

/-- The six drawing commands (R97). -/
def Instr.draws : Instr → Bool
  | .setpixel _ _ _ _ => true
  | .drawline _ _ _ _ _ _ => true
  | .drawrect _ _ _ _ _ _ _ => true
  | .drawcircle _ _ _ _ _ _ => true
  | .drawbitmap _ => true
  | .drawimage _ _ _ => true
  | .clear => false
  | .setsrc _ _ _ => false
  | .flush => false
  | .flushdirty => false

/-- The commands that read source memory (R36). -/
def Instr.readsSource : Instr → Bool
  | .drawbitmap _ => true
  | .drawimage _ _ _ => true
  | .setpixel _ _ _ _ => false
  | .clear => false
  | .drawline _ _ _ _ _ _ => false
  | .drawrect _ _ _ _ _ _ _ => false
  | .drawcircle _ _ _ _ _ _ => false
  | .setsrc _ _ _ => false
  | .flush => false
  | .flushdirty => false

/-- The command with its sync bit set to `b`; the four commands without one are themselves (R52, R54). -/
def Instr.withSync (b : Bool) : Instr → Instr
  | .setpixel x y c _ => .setpixel x y c b
  | .drawline x0 y0 x1 y1 c _ => .drawline x0 y0 x1 y1 c b
  | .drawrect x y w h f c _ => .drawrect x y w h f c b
  | .drawcircle cx cy r f c _ => .drawcircle cx cy r f c b
  | .drawbitmap _ => .drawbitmap b
  | .drawimage dx dy _ => .drawimage dx dy b
  | .clear => .clear
  | .setsrc w h base => .setsrc w h base
  | .flush => .flush
  | .flushdirty => .flushdirty

/-- The opcode of a command (R55). -/
def Instr.opcode : Instr → Opcode
  | .setpixel _ _ _ _ => .setpixel
  | .clear => .clear
  | .drawline _ _ _ _ _ _ => .drawline
  | .drawrect _ _ _ _ _ _ _ => .drawrect
  | .drawcircle _ _ _ _ _ _ => .drawcircle
  | .drawbitmap _ => .drawbitmap
  | .drawimage _ _ _ => .drawimage
  | .setsrc _ _ _ => .setsrc
  | .flush => .flush
  | .flushdirty => .flushdirty

/-- The fixed bits of a row of the opcode table: its `match` number (R55, `spec/opcode_table.json`). -/
def tableMatch : Opcode → CmdWord
  | .setpixel => 0x010000000000000000000000
  | .clear => 0x020000000000000000000000
  | .drawline => 0x030000000000000000000000
  | .drawrect => 0x040000000000000000000000
  | .drawcircle => 0x050000000000000000000000
  | .drawbitmap => 0x060000000000000000000000
  | .drawimage => 0x070000000000000000000000
  | .setsrc => 0x080000000000000000000000
  | .flush => 0x090000000000000000000000
  | .flushdirty => 0x0A0000000000000000000000

/-- Which bits of a row of the opcode table are fixed: its `mask` number (R55, `spec/opcode_table.json`). -/
def tableMask : Opcode → CmdWord
  | .setpixel => 0xFFFFFFFC00000000FFFFFFFF
  | .clear => 0xFFFFFFFFFFFFFFFFFFFFFFFF
  | .drawline => 0xFFFFFFFC0000000000000000
  | .drawrect => 0xFFFFFFF80000000000000000
  | .drawcircle => 0xFFFFFFF8000000000000FFFF
  | .drawbitmap => 0xFFFFFFFEFFFFFFFFFFFFFFFF
  | .drawimage => 0xFFFFFFFE00000000FFFFFFFF
  | .setsrc => 0xFFFFFFFF0000000000000000
  | .flush => 0xFFFFFFFFFFFFFFFFFFFFFFFF
  | .flushdirty => 0xFFFFFFFFFFFFFFFFFFFFFFFF

end Sys2Proof

namespace Sys2Proof.Machine

/-- What holds of the machine in every state a run can reach. -/
structure State.Sound (s : State) : Prop where
  /-- `FB` has `L` bytes (R18). -/
  fb_length : s.fb.length = s.L
  /-- `DIRTY` has `L` bits (R20). -/
  dirty_length : s.dirty.length = s.L
  /-- "`STATUS.HALT = 1` exactly when `STATUS.FCAUSE ≠ 0`" (R22). -/
  halt_iff : s.halt = true ↔ s.fcause ≠ 0
  /-- Cause codes 5..15 are never produced (R22, R103). -/
  cause_known : s.fcause.toNat ≤ 4
  /-- Only fault entry and reset write `FINFO` (R22). -/
  finfo_clear : s.halt = false → s.finfo = 0
  /-- An unsupported geometry, and nothing else, is a CONFIG_ERROR (R119, R109). -/
  config_fault : supportedGeometry s.cfgW s.cfgH = false ↔ s.fcause = 1
  /-- FINFO of the CONFIG_ERROR (R103). -/
  config_info : s.fcause = 1 → s.finfo.toNat = s.H * 256 + s.W
  /-- `POLL_MAX` is at least 1 (R7). -/
  poll_max : 1 ≤ s.params.pollMax
  /-- Source memory is in canonical form. -/
  src_wf : s.src.wf = true

/-- The block accepts commands: sound and not halted (R50, R106). -/
structure State.Accepting (s : State) : Prop extends s.Sound where
  not_halted : s.halt = false

/-- The end of a run (R132): nothing left for the block to do, and not halted. A halted run is a fault outcome
(R106), not a completed one. -/
def State.completed (s : State) : Bool := s.host.isEmpty && !s.halt

/-- The pixel at column `x`, row `y` of a framebuffer of width `w`: bit `y mod 8` of byte `x + w*(y div 8)` (R19). -/
def pixelAt (w : Nat) (fb : List Byte) (x y : Nat) : Bool := (fb.getD (x + w * (y / 8)) 0).getLsbD (y % 8)

/-- `fb` and `dirty` are what drawing the points `P` in colour `c` makes of the picture of `s`: exactly the plotted
pixels of the panel have the colour, every other pixel is as before, and exactly the bytes that were dirty or hold a
plotted pixel of the panel are dirty (R64, R65 (d)). -/
structure Drawn (P : Int → Int → Prop) (c : Colour) (s : State) (fb : List Byte) (dirty : List Bool) : Prop where
  fb_length : fb.length = s.L
  dirty_length : dirty.length = s.L
  plotted : ∀ x y : Nat, x < s.W → y < s.H → P x y → pixelAt s.W fb x y = colourBit c
  kept : ∀ x y : Nat, x < s.W → y < s.H → ¬P x y → pixelAt s.W fb x y = pixelAt s.W s.fb x y
  marked : ∀ k : Nat, k < s.L → (dirty.getD k false = true ↔
    dirtyAt s k = true ∨ ∃ x y : Nat, x < s.W ∧ y < s.H ∧ P x y ∧ x + s.W * (y / 8) = k)

/-- The device is ready at the `q`-th probe read of the refresh (the first is number 0), and busy before (R88). -/
def ReadyAt (s : State) (q : Nat) : Prop :=
  q < s.params.pollMax ∧ (statusAt s q).getLsbD 7 = false ∧ ∀ i < q, (statusAt s i).getLsbD 7 = true

/-- The device answers busy `POLL_MAX` times (R88). -/
def BusyThroughout (s : State) : Prop := ∀ i < s.params.pollMax, (statusAt s i).getLsbD 7 = true

/-- The state after `n` probe reads: `n` `RX` events, nothing else of MFBP changed (R43, R88). -/
def probed (s : State) (n : Nat) : State :=
  { s with
    trace := s.trace ++ (List.range n).map fun i => .rx s.cfgAddr (statusAt s i)
    rxIn := s.rxIn.drop n
    rxCount := s.rxCount + n }

/-- The source byte at an address, read under the platform's admission (R40): `b` is what the host last stored there. -/
def Admits (s : State) (addr : Nat) (b : Byte) : Prop := addr < 2 ^ 32 ∧ Memory.read s.src addr = some b

/-- The read of the address is refused: at or beyond 2^32, or not admitted (R40). -/
def Refuses (s : State) (addr : Nat) : Prop := 2 ^ 32 ≤ addr ∨ Memory.read s.src addr = none

/-- The image pixel at column `ix`, row `iy` lands on the panel pixel at column `X`, row `Y` when the image is put at
offset `(dx, dy)` (R84). -/
def LandsAt (s : State) (dx dy : Int) (ix iy X Y : Nat) : Prop :=
  ix < s.srcW.toNat ∧ iy < s.srcH.toNat ∧ X < s.W ∧ Y < s.H ∧ (X : Int) = ix + dx ∧ (Y : Int) = iy + dy

/-- The address of component `j` (0, 1, 2, 3 = R, G, B, A) of the image pixel at column `ix`, row `iy` (R39). -/
def imageAddr (s : State) (ix iy j : Nat) : Nat := s.srcBase.toNat + 4 * (iy * s.srcW.toNat + ix) + j

/-- DRAWIMAGE's order of reads (R86): byte index ascending, then bit ascending, then R, G, B, A. -/
def ReadBefore (s : State) (X Y j X' Y' j' : Nat) : Prop :=
  X + s.W * (Y / 8) < X' + s.W * (Y' / 8) ∨
  (X + s.W * (Y / 8) = X' + s.W * (Y' / 8) ∧ (Y % 8 < Y' % 8 ∨ (Y % 8 = Y' % 8 ∧ j < j')))

/-- `fb` and `dirty` are what compositing the image `img` (column, row, component) at offset `(dx, dy)` makes of the
bytes below `n` of the picture of `s` (R84, R85): an opaque pixel sets or clears its destination, a transparent one
and every pixel that is no destination leave theirs, the bytes from `n` on are as before, and exactly the bytes that
were dirty or have a new value are dirty. -/
structure Composited (s : State) (dx dy : Int) (img : Nat → Nat → Nat → Byte) (n : Nat) (fb : List Byte)
    (dirty : List Bool) : Prop where
  fb_length : fb.length = s.L
  dirty_length : dirty.length = s.L
  painted : ∀ ix iy X Y : Nat, LandsAt s dx dy ix iy X Y → X + s.W * (Y / 8) < n → img ix iy 3 ≠ 0 →
    pixelAt s.W fb X Y = decide (img ix iy 0 ||| img ix iy 1 ||| img ix iy 2 ≠ 0)
  transparent : ∀ ix iy X Y : Nat, LandsAt s dx dy ix iy X Y → img ix iy 3 = 0 →
    pixelAt s.W fb X Y = pixelAt s.W s.fb X Y
  outside : ∀ X Y : Nat, X < s.W → Y < s.H → (∀ ix iy : Nat, ¬LandsAt s dx dy ix iy X Y) →
    pixelAt s.W fb X Y = pixelAt s.W s.fb X Y
  uncommitted : ∀ X Y : Nat, X < s.W → Y < s.H → n ≤ X + s.W * (Y / 8) → pixelAt s.W fb X Y = pixelAt s.W s.fb X Y
  marked : ∀ k : Nat, k < s.L → (dirty.getD k false = true ↔ dirtyAt s k = true ∨ fb.getD k 0 ≠ fbAt s k)

/-- `fb` and `dirty` are what writing the samples `0 .. n-1` of the row-major sample array `smp` makes of the picture
of `s` (R82, R83): 0 clears the pixel, any other value sets it; exactly the bytes that were dirty or hold a written
pixel are dirty. -/
structure Sampled (s : State) (smp : Nat → Byte) (n : Nat) (fb : List Byte) (dirty : List Bool) : Prop where
  fb_length : fb.length = s.L
  dirty_length : dirty.length = s.L
  written : ∀ x y : Nat, x < s.W → y < s.H → y * s.W + x < n →
    pixelAt s.W fb x y = decide (smp (y * s.W + x) ≠ 0)
  kept : ∀ x y : Nat, x < s.W → y < s.H → n ≤ y * s.W + x → pixelAt s.W fb x y = pixelAt s.W s.fb x y
  marked : ∀ k : Nat, k < s.L → (dirty.getD k false = true ↔
    dirtyAt s k = true ∨ ∃ x y : Nat, x < s.W ∧ y < s.H ∧ y * s.W + x < n ∧ x + s.W * (y / 8) = k)

/-- How many steps along the minor axis a line of `n` major and `m` minor steps has made after `i` major steps. -/
def minorSteps (n m i : Nat) : Nat := (i * m + (n - 1 - n / 2)) / n

/-- The points of a line in closed form: along the longer axis one step at a time, along the other by `minorSteps`. -/
def lineClosedForm (x0 y0 x1 y1 : Int) : List (Int × Int) :=
  (List.range (max (absDiff x0 x1) (absDiff y0 y1) + 1)).map fun (i : Nat) =>
    if absDiff x0 x1 > absDiff y0 y1 then
      (x0 + stepSign x0 x1 * i, y0 + stepSign y0 y1 * (minorSteps (absDiff x0 x1) (absDiff y0 y1) i : Nat))
    else
      (x0 + stepSign x0 x1 * (minorSteps (absDiff y0 y1) (absDiff x0 x1) i : Nat), y0 + stepSign y0 y1 * i)

/-- How many bursts a part of the trace holds. -/
def txCount : List Event → Nat
  | [] => 0
  | .tx _ _ :: es => txCount es + 1
  | .rx _ _ :: es => txCount es

/-- How many status reads a part of the trace holds. -/
def rxEvents : List Event → Nat
  | [] => 0
  | .tx _ _ :: es => rxEvents es
  | .rx _ _ :: es => rxEvents es + 1

/-- How many bytes a part of the trace hands to `writeBytes` (R98). -/
def txBytes : List Event → Nat
  | [] => 0
  | .tx _ bytes :: es => bytes.length + txBytes es
  | .rx _ _ :: es => txBytes es

end Sys2Proof.Machine
end

