-- ==== Sys2Proof/Certificates/Slice0/Obligations.lean ====
section
/-! DEFINITION. The statements for the provers, each formalising what a rule of the spec says. -/

open Sys2Proof Sys2Proof.Machine

/-! ### Encoding, decoding, assembly -/

/-- R63: the assembly lines of the spec's examples with their words, and the command each word stands for. -/
def specExamples : List (String × CmdWord × Instr) :=
  [("setpixel 3, 9, set", 0x010000030003000900000000, .setpixel 3 9 .set true),
   ("setpixel -1, 0, clear, nosync", 0x01000000FFFF000000000000, .setpixel (-1) 0 .clear false),
   ("clear", 0x020000000000000000000000, .clear),
   ("drawline 0, 0, 10, 0, set, nosync", 0x0300000200000000000A0000, .drawline 0 0 10 0 .set false),
   ("drawrect 2, 2, 5, 4, set, solid, nosync", 0x040000060002000200050004, .drawrect 2 2 5 4 .solid .set false),
   ("drawcircle 10, 10, 5, set", 0x05000003000A000A00050000, .drawcircle 10 10 5 .outline .set true),
   ("drawbitmap", 0x060000010000000000000000, .drawbitmap true),
   ("drawimage -2, 3, nosync", 0x07000000FFFE000300000000, .drawimage (-2) 3 false),
   ("setsrc 0x00012000, 4, 3", 0x080000000004000300012000, .setsrc 4 3 0x12000),
   ("flush", 0x090000000000000000000000, .flush),
   ("flushdirty", 0x0A0000000000000000000000, .flushdirty)]

/-- R63: every example line assembles to its word, and the word decodes to the command. -/
def Obligations.SpecExamplesAssembleAndDecode : Prop :=
  ∀ p ∈ specExamples, assembleText p.1 = some p.2.1 ∧ decode p.2.1 = .ok p.2.2

/-- Decode and encode agree: decoding the word of a well-formed command gives the command, every operand at every value. -/
def Obligations.EncodeThenDecode : Prop :=
  ∀ i : Instr, i.wellFormed = true → decode (encode i) = .ok i

/-- Every legal word is the word of the one command it decodes to, whose operands fit their fields. -/
def Obligations.DecodeThenEncode : Prop :=
  ∀ (w : CmdWord) (i : Instr), decode w = .ok i → encode i = w ∧ i.wellFormed = true

/-- R55, R57: a word decodes to a command of opcode `o` exactly when its fixed bits are those of row `o` of the opcode
table; so it matches at most one row, and a nonzero must-be-zero field is not ignored. -/
def Obligations.DecodesExactlyTheTableRows : Prop :=
  ∀ (w : CmdWord) (o : Opcode), (∃ i, decode w = .ok i ∧ i.opcode = o) ↔ w &&& tableMask o = tableMatch o

/-- R58: accepting a word that matches no row raises ILLEGAL_COMMAND with FINFO = op (bits 95:88) before any state
changes of MFBP; every word that matches a row is legal, whatever its operand fields hold; the all-zero and the all-one word
match no row. That source memory, the host's, has then taken all the host stored meanwhile is the model's choice
(log 10, DEDUCED). -/
def Obligations.IllegalWordRaisesIllegalCommand : Prop :=
  (∀ (s : State) (w : CmdWord) (during : List RacingStore) (rest : List HostAction), s.halt = false →
    s.host = .command w during :: rest → (∀ o, w &&& tableMask o ≠ tableMatch o) →
    step s = .next { s with
      host := rest, src := Memory.storeAll s.src during, halt := true, fcause := 2, finfo := BitVec.ofNat 32 (w.toNat / 2 ^ 88) }) ∧
  (∀ (w : CmdWord) (o : Opcode), w &&& tableMask o = tableMatch o → ∃ i, decode w = .ok i) ∧
  (∀ o, (0 : CmdWord) &&& tableMask o ≠ tableMatch o) ∧ (∀ o, BitVec.allOnes 96 &&& tableMask o ≠ tableMatch o)

/-- R61, R62: the line of a command assembles to the command's word, or to an error when an operand does not fit its
field; no operand is truncated. -/
def Obligations.AssemblyLineIsOneWordOrError : Prop :=
  ∀ i : Instr, assemble (sourceLine i).1 (sourceLine i).2 = if i.wellFormed then some (encode i) else none

/-! ### The execution cycle, the halted block, reset -/

/-- R14, R60: a step of a block that is not halted and is presented a legal word runs the decoded command to completion
on the state without that word, and counts it unless it faulted. What the host stores into source memory meanwhile (R41)
is read as `racingView` says (see `RacingReadsAreOldOrNew`) and has landed when the step ends: the model's choice
(log 10, DEDUCED). With no such store the command runs on the state as it is. -/
def Obligations.StepRunsDecodedCommand : Prop :=
  (∀ (s : State) (w : CmdWord) (during : List RacingStore) (rest : List HostAction) (i : Instr), s.halt = false →
    s.host = .command w during :: rest → decode w = .ok i →
    ∃ t, exec i (racingView during { s with host := rest }) = .next t ∧
      step s = .next { (if t.halt then t else { t with ci := t.ci + 1 }) with src := Memory.storeAll s.src during }) ∧
  (∀ (s : State) (w : CmdWord) (rest : List HostAction) (i : Instr), s.halt = false →
    s.host = .command w [] :: rest → decode w = .ok i →
    ∃ t, exec i { s with host := rest } = .next t ∧ step s = .next (if t.halt then t else { t with ci := t.ci + 1 }))

/-- Every command runs to an end in every state: it answers a next state, never a stop. -/
def Obligations.EveryCommandAnswersNext : Prop :=
  ∀ (i : Instr) (s : State), ∃ t, exec i s = .next t

/-- R106: a halted block accepts no command word; its step has no next state, so nothing changes and nothing is sent.
What the host stores into source memory meanwhile changes source memory alone. -/
def Obligations.HaltedBlockAcceptsNothing : Prop :=
  (∀ s : State, s.halt = true → (s.host = [] ∨ ∃ w during rest, s.host = .command w during :: rest) →
    step s = .fault (.halted s.fcause s.finfo)) ∧
  (∀ (s : State) (a : BitVec 32) (v : Byte) (rest : List HostAction), s.host = .store a v :: rest →
    ∃ m, step s = .next { s with src := m, host := rest })

/-- R14: with no word from the host an idle block waits; nothing changes while waiting. -/
def Obligations.IdleBlockWaits : Prop :=
  ∀ s : State, s.halt = false → s.host = [] → step s = .next s

/-- R14, R105: every executed command advances `ci` by exactly 1, a faulting one not at all; the word is consumed. -/
def Obligations.CommandIndexCountsCompletedCommands : Prop :=
  ∀ (s : State) (w : CmdWord) (during : List RacingStore) (rest : List HostAction), s.halt = false →
    s.host = .command w during :: rest → ∃ t, step s = .next t ∧ t.host = rest ∧ (t.halt = false → t.ci = s.ci + 1) ∧ (t.halt = true → t.ci = s.ci)

/-- R27, R118: the state after reset with no construction input supplied. The contents of FB are left open. -/
def Obligations.ResetStateIsAsTheTableSays : Prop :=
  State.reset.cfgW = 128 ∧ State.reset.cfgH = 32 ∧ State.reset.cfgAddr = 0x3C ∧ State.reset.fb.length = 512 ∧
  State.reset.dirty.length = 512 ∧ (∀ k, dirtyAt State.reset k = false) ∧ State.reset.srcBase = 0 ∧
  State.reset.srcW = 0 ∧ State.reset.srcH = 0 ∧ State.reset.halt = false ∧ State.reset.fcause = 0 ∧
  State.reset.finfo = 0 ∧ State.reset.trace = [] ∧ State.reset.ci = 0

/-- R27, R119: a reset by the host, halted or not, latches the construction inputs with their defaults and puts every
piece of state at its reset value; with a supported geometry the status is clear, with any other the block is halted
with CONFIG_ERROR and accepts no command (in the model's form of that, log 6). -/
def Obligations.HostResetLatchesAndChecksGeometry : Prop :=
  ∀ (s : State) (inputs : Construction) (rest : List HostAction), s.host = .reset inputs :: rest →
    ∃ t, step s = .next t ∧ t.cfgW = inputs.w.getD 128 ∧ t.cfgH = inputs.h.getD 32 ∧
      t.cfgAddr = inputs.busAddr.getD 0x3C ∧ (∀ k, dirtyAt t k = false) ∧ t.srcBase = 0 ∧ t.srcW = 0 ∧ t.srcH = 0 ∧
      t.trace = [] ∧ t.ci = 0 ∧
      (((t.cfgW = 128 ∧ t.cfgH = 32) ∨ (t.cfgW = 128 ∧ t.cfgH = 64) ∨ (t.cfgW = 96 ∧ t.cfgH = 16)) →
        t.halt = false ∧ t.fcause = 0 ∧ t.finfo = 0 ∧ t.fb.length = t.cfgW.toNat * t.cfgH.toNat / 8 ∧
        t.dirty.length = t.cfgW.toNat * t.cfgH.toNat / 8) ∧
      (¬((t.cfgW = 128 ∧ t.cfgH = 32) ∨ (t.cfgW = 128 ∧ t.cfgH = 64) ∨ (t.cfgW = 96 ∧ t.cfgH = 16)) →
        t.halt = true ∧ t.fcause = 1 ∧ t.finfo.toNat = t.cfgH.toNat * 256 + t.cfgW.toNat ∧
        ∀ w during r, step { t with host := .command w during :: r } = .fault (.halted t.fcause t.finfo))

/-- The model's choice of what a reset does not touch (log 8): the host's and the device's own things. -/
def Obligations.HostResetKeepsTheEnvironment : Prop :=
  ∀ (s : State) (inputs : Construction) (rest : List HostAction), s.host = .reset inputs :: rest →
    ∃ t, step s = .next t ∧ t.host = rest ∧ t.src = s.src ∧ t.params = s.params ∧ t.rxIn = s.rxIn ∧
      t.rxCount = s.rxCount

/-- The invariant holds after reset. -/
def Obligations.ResetIsSound : Prop := State.reset.Sound

/-- Every step keeps the invariant: the stores keep their length, HALT and FCAUSE agree, causes are known ones,
CONFIG_ERROR is exactly an unsupported geometry, source memory keeps its canonical form. -/
def Obligations.StepKeepsSound : Prop :=
  ∀ s t : State, s.Sound → step s = .next t → t.Sound

/-- R17, R101: the configuration registers (and the implementation parameters) change only in a reset. -/
def Obligations.OnlyResetWritesConfiguration : Prop :=
  ∀ s t : State, step s = .next t → (∀ inputs rest, s.host ≠ .reset inputs :: rest) →
    t.cfgW = s.cfgW ∧ t.cfgH = s.cfgH ∧ t.cfgAddr = s.cfgAddr ∧ t.params = s.params ∧ t.L = s.L

/-- R31, R40: a store by the host changes the byte at that address where the platform backs it, and no other address;
which addresses are backed stays. MFBP's own state is untouched. -/
def Obligations.HostStoreThenReadReturnsTheByte : Prop :=
  ∀ (s : State) (a : BitVec 32) (v : Byte) (rest : List HostAction), s.host = .store a v :: rest →
    ∃ m, step s = .next { s with src := m, host := rest } ∧
      ∀ b, Memory.read m b =
        if b = a.toNat then (if Memory.read s.src b = none then none else some v) else Memory.read s.src b

/-- R23: what the host read port returns, halted or not: at addresses 0 to 5 with any geometry, so also in a block that
CONFIG_ERROR has halted; in the FB and DIRTY ranges and at any other address with a supported geometry, for which alone
the spec defines `L` (R119, log 11). -/
def Obligations.ReadPortMap : Prop :=
  ∀ s : State, s.Sound →
    (readPort s 0).toNat = s.cfgAddr.toNat * 65536 + s.cfgH.toNat * 256 + s.cfgW.toNat ∧
    (∀ b, (readPort s 1).getLsbD b = ((decide (b = 0) && s.halt) || (decide (4 ≤ b ∧ b < 8) && s.fcause.getLsbD (b - 4)))) ∧
    readPort s 2 = s.finfo ∧ (readPort s 3).toNat = dcount s ∧ readPort s 4 = s.srcBase ∧
    (readPort s 5).toNat = s.srcH.toNat * 65536 + s.srcW.toNat ∧
    (supportedGeometry s.cfgW s.cfgH = true →
      (∀ k < s.L, (readPort s (0x1000 + k)).toNat = (fbAt s k).toNat) ∧
      (∀ k < s.L, (readPort s (0x2000 + k)).toNat = (dirtyAt s k).toNat) ∧
      (∀ a, 5 < a → ¬(0x1000 ≤ a ∧ a < 0x1000 + s.L) → ¬(0x2000 ≤ a ∧ a < 0x2000 + s.L) → readPort s a = 0))

/-! ### SETPIXEL, CLEAR, SETSRC -/

/-- R64, R66: SETPIXEL without sync writes the one pixel when it is on the panel and marks its byte, whether or not the
value changes; off the panel nothing changes. Every other piece of state is unchanged. -/
def Obligations.SetpixelDrawsThePixel : Prop :=
  ∀ (s : State) (x y : Int) (c : Colour), s.Accepting →
    ∃ fb dirty, exec (.setpixel x y c false) s = .next { s with fb := fb, dirty := dirty } ∧
      Drawn (fun X Y => X = x ∧ Y = y) c s fb dirty

/-- R64: off the panel SETPIXEL changes nothing at all; the test is on the mathematical values, so no coordinate
aliases to another. -/
def Obligations.SetpixelOffPanelChangesNothing : Prop :=
  ∀ (s : State) (x y : Int) (c : Colour), (x < 0 ∨ (s.W : Int) ≤ x ∨ y < 0 ∨ (s.H : Int) ≤ y) →
    exec (.setpixel x y c false) s = .next s

/-- R65 (b), (c): `SetPixel` is idempotent; two of one colour commute, and so do two on different pixels. -/
def Obligations.SetPixelIdempotentAndCommuting : Prop :=
  ∀ (s : State) (c d : Colour) (x y x' y' : Int),
    setPixel c x y (setPixel c x y s) = setPixel c x y s ∧
    setPixel c x' y' (setPixel c x y s) = setPixel c x y (setPixel c x' y' s) ∧
    ((x, y) ≠ (x', y') → setPixel d x' y' (setPixel c x y s) = setPixel c x y (setPixel d x' y' s))

/-- R67: CLEAR zero-fills FB and changes nothing else: DIRTY stays, nothing is sent. -/
def Obligations.ClearZeroFillsOnly : Prop :=
  ∀ s : State, exec .clear s = .next { s with fb := List.replicate s.L 0 }

/-- R81: SETSRC loads the three source registers with its operands and changes nothing else. -/
def Obligations.SetsrcLoadsTheSourceRegisters : Prop :=
  ∀ (s : State) (w h base : Nat), (Instr.setsrc w h base).wellFormed = true →
    ∃ b rw rh, exec (.setsrc w h base) s = .next { s with srcBase := b, srcW := rw, srcH := rh } ∧
      b.toNat = base ∧ rw.toNat = w ∧ rh.toNat = h

/-! ### Lines, rectangles, circles -/

/-- The points of `Line` in closed form: the Bresenham loop, for all endpoints, plots one point per step of the longer
axis, the other coordinate rounded from the exact slope. -/
def Obligations.LineLoopEqualsClosedForm : Prop :=
  ∀ x0 y0 x1 y1 : Int, linePoints x0 y0 x1 y1 = lineClosedForm x0 y0 x1 y1

/-- R71 (a) to (c): `Line` plots exactly `max(dx, dy) + 1` points, the first and last are the endpoints, and successive
points differ by at most 1 in each coordinate and by exactly 1 in the major axis. -/
def Obligations.LinePlotsItsEndpointsStepByStep : Prop :=
  ∀ x0 y0 x1 y1 : Int,
    (linePoints x0 y0 x1 y1).length = max (x1 - x0).natAbs (y1 - y0).natAbs + 1 ∧
    (linePoints x0 y0 x1 y1).head? = some (x0, y0) ∧ (linePoints x0 y0 x1 y1).getLast? = some (x1, y1) ∧
    (linePoints x0 y0 x1 y1).Nodup ∧
    ∀ i p q, (linePoints x0 y0 x1 y1)[i]? = some p → (linePoints x0 y0 x1 y1)[i + 1]? = some q →
      (q.1 - p.1).natAbs ≤ 1 ∧ (q.2 - p.2).natAbs ≤ 1 ∧
      ((y1 - y0).natAbs < (x1 - x0).natAbs → (q.1 - p.1).natAbs = 1) ∧
      ((x1 - x0).natAbs ≤ (y1 - y0).natAbs → (q.2 - p.2).natAbs = 1)

/-- R71 (d): a horizontal, vertical or 45-degree line plots every point between its ends and no other, in either
direction. -/
def Obligations.StraightLinesPlotEveryPointBetween : Prop :=
  (∀ x0 x1 y X Y : Int, (X, Y) ∈ linePoints x0 y x1 y ↔ Y = y ∧ min x0 x1 ≤ X ∧ X ≤ max x0 x1) ∧
  (∀ x y0 y1 X Y : Int, (X, Y) ∈ linePoints x y0 x y1 ↔ X = x ∧ min y0 y1 ≤ Y ∧ Y ≤ max y0 y1) ∧
  (∀ x0 y0 n X Y : Int,
    ((X, Y) ∈ linePoints x0 y0 (x0 + n) (y0 + n) ↔ X - x0 = Y - y0 ∧ min 0 n ≤ X - x0 ∧ X - x0 ≤ max 0 n) ∧
    ((X, Y) ∈ linePoints x0 y0 (x0 + n) (y0 - n) ↔ X - x0 = y0 - Y ∧ min 0 n ≤ X - x0 ∧ X - x0 ≤ max 0 n))

/-- R70, R72: DRAWLINE without sync draws exactly the points of the line that are on the panel; every other piece of
state is unchanged. -/
def Obligations.DrawlineDrawsTheLine : Prop :=
  ∀ (s : State) (x0 y0 x1 y1 : Int) (c : Colour), s.Accepting →
    ∃ fb dirty, exec (.drawline x0 y0 x1 y1 c false) s = .next { s with fb := fb, dirty := dirty } ∧
      Drawn (fun X Y => (X, Y) ∈ lineClosedForm x0 y0 x1 y1) c s fb dirty

/-- R73: DRAWRECT solid fills exactly columns `x..x+w-1`, rows `y..y+h-1`, as far as they are on the panel. -/
def Obligations.DrawrectSolidFillsTheRegion : Prop :=
  ∀ (s : State) (x y w h : Int) (c : Colour), s.Accepting → 1 ≤ w → 1 ≤ h →
    ∃ fb dirty, exec (.drawrect x y w h .solid c false) s = .next { s with fb := fb, dirty := dirty } ∧
      Drawn (fun X Y => x ≤ X ∧ X ≤ x + w - 1 ∧ y ≤ Y ∧ Y ≤ y + h - 1) c s fb dirty

/-- R74: DRAWRECT outline draws exactly the perimeter of the region the solid mode fills. -/
def Obligations.DrawrectOutlineDrawsThePerimeter : Prop :=
  ∀ (s : State) (x y w h : Int) (c : Colour), s.Accepting → 1 ≤ w → 1 ≤ h →
    ∃ fb dirty, exec (.drawrect x y w h .outline c false) s = .next { s with fb := fb, dirty := dirty } ∧
      Drawn (fun X Y => (x ≤ X ∧ X ≤ x + w - 1 ∧ y ≤ Y ∧ Y ≤ y + h - 1) ∧
        (X = x ∨ X = x + w - 1 ∨ Y = y ∨ Y = y + h - 1)) c s fb dirty

/-- R75: with `w ≤ 0` or `h ≤ 0` DRAWRECT plots nothing, in either mode. -/
def Obligations.DegenerateDrawrectPlotsNothing : Prop :=
  ∀ (s : State) (x y w h : Int) (f : Fill) (c : Colour), (w ≤ 0 ∨ h ≤ 0) →
    exec (.drawrect x y w h f c false) s = .next s

/-- The walk of the midpoint circle (R77) is the true circle's: for `r ≥ 1` it emits exactly the points of the octant
`0 ≤ y ≤ x` whose `x` is the integer nearest to `sqrt(r*r - y*y)`; for `r = 0` the point (0, 0), for `r < 0` nothing. -/
def Obligations.CircleWalkIsTheNearestOctant : Prop :=
  (∀ r x y : Int, 1 ≤ r → ((x, y) ∈ circleWalk r ↔
    0 ≤ y ∧ y ≤ x ∧ x * x - x + y * y < r * r ∧ r * r ≤ x * x + x + y * y)) ∧
  circleWalk 0 = [(0, 0)] ∧ (∀ r : Int, r < 0 → circleWalk r = [])

/-- R78: DRAWCIRCLE outline draws exactly the eight sign and swap images of the walk's steps. -/
def Obligations.DrawcircleOutlineDrawsTheEightImages : Prop :=
  ∀ (s : State) (cx cy r : Int) (c : Colour), s.Accepting →
    ∃ fb dirty, exec (.drawcircle cx cy r .outline c false) s = .next { s with fb := fb, dirty := dirty } ∧
      Drawn (fun X Y => ∃ p ∈ circleWalk r,
        (|X - cx| = p.1 ∧ |Y - cy| = p.2) ∨ (|X - cx| = p.2 ∧ |Y - cy| = p.1)) c s fb dirty

/-- R79: DRAWCIRCLE solid fills, for each step of the walk, the span of half-width `x` in the rows `cy ± y` and the span
of half-width `y` in the rows `cy ± x`. -/
def Obligations.DrawcircleSolidFillsTheSpans : Prop :=
  ∀ (s : State) (cx cy r : Int) (c : Colour), s.Accepting →
    ∃ fb dirty, exec (.drawcircle cx cy r .solid c false) s = .next { s with fb := fb, dirty := dirty } ∧
      Drawn (fun X Y => ∃ p ∈ circleWalk r,
        (|X - cx| ≤ p.1 ∧ |Y - cy| = p.2) ∨ (|X - cx| ≤ p.2 ∧ |Y - cy| = p.1)) c s fb dirty

/-- R78: the plotted set of an outline circle is mapped to itself by the rotation `(cx+u, cy+v) -> (cx-v, cy+u)`. -/
def Obligations.OutlineCircleIsRotationInvariant : Prop :=
  ∀ cx cy r u v : Int, (cx + u, cy + v) ∈ (circleWalk r).flatMap (circlePoints cx cy) →
    (cx - v, cy + u) ∈ (circleWalk r).flatMap (circlePoints cx cy)

/-- R80: with `r < 0` DRAWCIRCLE plots nothing; with `r = 0` it plots the centre pixel only, in both modes. -/
def Obligations.SmallestCircles : Prop :=
  (∀ (s : State) (cx cy r : Int) (f : Fill) (c : Colour), r < 0 →
    exec (.drawcircle cx cy r f c false) s = .next s) ∧
  (∀ (s : State) (cx cy : Int) (f : Fill) (c : Colour), s.Accepting →
    ∃ fb dirty, exec (.drawcircle cx cy 0 f c false) s = .next { s with fb := fb, dirty := dirty } ∧
      Drawn (fun X Y => X = cx ∧ Y = cy) c s fb dirty)

/-- R79: the solid circle contains every pixel of the outline circle of the same centre and radius. -/
def Obligations.SolidCircleContainsTheOutline : Prop :=
  ∀ (s t u : State) (cx cy r : Int) (x y : Nat), s.Accepting → x < s.W → y < s.H →
    pixelAt s.W s.fb x y = false →
    exec (.drawcircle cx cy r .outline .set false) s = .next t →
    exec (.drawcircle cx cy r .solid .set false) s = .next u →
    pixelAt s.W t.fb x y = true → pixelAt s.W u.fb x y = true

/-! ### Bitmaps and images -/

/-- R83: DRAWBITMAP without sync, every sample admitted: every pixel takes its sample's colour, every byte is dirty. -/
def Obligations.DrawbitmapWritesEverySample : Prop :=
  ∀ (s : State) (smp : Nat → Byte), s.Accepting →
    (∀ i < s.W * s.H, Admits s (s.srcBase.toNat + i) (smp i)) →
    ∃ fb dirty, exec (.drawbitmap false) s = .next { s with fb := fb, dirty := dirty } ∧
      Sampled s smp (s.W * s.H) fb dirty ∧ ∀ k < s.L, dirty.getD k false = true

/-- R108 (b): a refused sample `i` raises SRC_ACCESS with its address modulo 2^32; samples `0..i-1` have been applied,
nothing later, and the sync tail does not run, with either sync bit. -/
def Obligations.DrawbitmapStopsAtARefusedSample : Prop :=
  ∀ (s : State) (smp : Nat → Byte) (i : Nat) (sync : Bool), s.Accepting → i < s.W * s.H →
    (∀ j < i, Admits s (s.srcBase.toNat + j) (smp j)) → Refuses s (s.srcBase.toNat + i) →
    ∃ fb dirty, exec (.drawbitmap sync) s = .next { s with
        fb := fb, dirty := dirty, halt := true, fcause := 4, finfo := BitVec.ofNat 32 (s.srcBase.toNat + i) } ∧
      Sampled s smp i fb dirty

/-- R84, R85, R86: DRAWIMAGE without sync, every pixel that lands on the panel admitted: the composited picture, and only
bytes whose value changed newly dirty. Pixels that land off the panel are not read. -/
def Obligations.DrawimageCompositesTheImage : Prop :=
  ∀ (s : State) (dx dy : Int) (img : Nat → Nat → Nat → Byte), s.Accepting →
    (∀ ix iy X Y, LandsAt s dx dy ix iy X Y → ∀ j < 4, Admits s (imageAddr s ix iy j) (img ix iy j)) →
    ∃ fb dirty, exec (.drawimage dx dy false) s = .next { s with fb := fb, dirty := dirty } ∧
      Composited s dx dy img s.L fb dirty

/-- R108 (c), R109: the first refused read of DRAWIMAGE raises SRC_ACCESS with its address modulo 2^32; the bytes before
the one being composed have been committed, that byte has not, and the sync tail does not run, with either sync bit. -/
def Obligations.DrawimageStopsAtTheFirstRefusedRead : Prop :=
  ∀ (s : State) (dx dy : Int) (img : Nat → Nat → Nat → Byte) (ix iy X Y j : Nat) (sync : Bool), s.Accepting →
    LandsAt s dx dy ix iy X Y → j < 4 → Refuses s (imageAddr s ix iy j) →
    (∀ ix' iy' X' Y' j', LandsAt s dx dy ix' iy' X' Y' → j' < 4 → ReadBefore s X' Y' j' X Y j →
      Admits s (imageAddr s ix' iy' j') (img ix' iy' j')) →
    ∃ fb dirty, exec (.drawimage dx dy sync) s = .next { s with
        fb := fb, dirty := dirty, halt := true, fcause := 4, finfo := BitVec.ofNat 32 (imageAddr s ix iy j) } ∧
      Composited s dx dy img (X + s.W * (Y / 8)) fb dirty

/-- R86: an empty image, or one that lies wholly off the panel, is not read and changes nothing, whatever source memory
admits. -/
def Obligations.DrawimageOffPanelReadsNothing : Prop :=
  ∀ (s : State) (dx dy : Int), s.Accepting →
    (s.srcW = 0 ∨ s.srcH = 0 ∨ (s.W : Int) ≤ dx ∨ (s.H : Int) ≤ dy ∨ dx ≤ -(s.srcW.toNat : Int) ∨
      dy ≤ -(s.srcH.toNat : Int)) →
    exec (.drawimage dx dy false) s = .next s

/-! ### Refreshes -/

/-- R91: FLUSH, the device ready at probe read `q`: `q + 1` status reads, then the seven bursts of the whole buffer,
then the dirty set is empty; FB and everything else unchanged. The device busy at every read: POLL_TIMEOUT, and nothing
below the probe happens. -/
def Obligations.FlushSendsTheWholeBuffer : Prop :=
  (∀ (s : State) (q : Nat), s.Accepting → ReadyAt s q →
    exec .flush s = .next { probed s (q + 1) with
      trace := (probed s (q + 1)).trace ++
        [.tx s.cfgAddr [0x00, s.params.opcColumn], .tx s.cfgAddr [0x00, 0x00], .tx s.cfgAddr [0x00, s.cfgW - 1],
         .tx s.cfgAddr [0x00, s.params.opcPage], .tx s.cfgAddr [0x00, 0x00],
         .tx s.cfgAddr [0x00, BitVec.ofNat 8 (s.H / 8 - 1)], .tx s.cfgAddr (0x40 :: s.fb)]
      dirty := List.replicate s.L false }) ∧
  (∀ s : State, BusyThroughout s → ∃ info, exec .flush s = .next { probed s s.params.pollMax with
    halt := true, fcause := 3, finfo := info })

/-- R93, R94, R96: FLUSHDIRTY with `7n ≤ L`, the device ready at probe read `q`: `q + 1` status reads, then for each dirty
byte, ascending, its own window and its byte, then the dirty set is empty; FB and everything else unchanged. -/
def Obligations.FlushdirtySendsEachDirtyByte : Prop :=
  ∀ (s : State) (q : Nat), s.Accepting → 7 * dcount s ≤ s.L → ReadyAt s q →
    exec .flushdirty s = .next { probed s (q + 1) with
      trace := (probed s (q + 1)).trace ++
        ((List.range s.L).filter fun k => dirtyAt s k).flatMap fun k =>
          [.tx s.cfgAddr [0x00, s.params.opcColumn], .tx s.cfgAddr [0x00, BitVec.ofNat 8 (k % s.W)],
           .tx s.cfgAddr [0x00, BitVec.ofNat 8 (k % s.W)], .tx s.cfgAddr [0x00, s.params.opcPage],
           .tx s.cfgAddr [0x00, BitVec.ofNat 8 (k / s.W)], .tx s.cfgAddr [0x00, BitVec.ofNat 8 (k / s.W)],
           .tx s.cfgAddr [0x40, fbAt s k]]
      dirty := List.replicate s.L false }

/-- R93: FLUSHDIRTY does exactly what FLUSH does when `7n > L`, and a partial refresh otherwise; the boundary on the
three panels: full refresh from 74, 147 and 28 dirty bytes on. -/
def Obligations.RefreshDecision : Prop :=
  ∀ s : State,
    exec .flushdirty s = (if s.L < 7 * dcount s then exec .flush s
      else finish ((partialRefresh s).andThen fun t => .go (clearDirty t))) ∧
    (s.cfgW = 128 → s.cfgH = 32 → (s.L < 7 * dcount s ↔ 74 ≤ dcount s)) ∧
    (s.cfgW = 128 → s.cfgH = 64 → (s.L < 7 * dcount s ↔ 147 ≤ dcount s)) ∧
    (s.cfgW = 96 → s.cfgH = 16 → (s.L < 7 * dcount s ↔ 28 ≤ dcount s))

/-- R88, R108 (d): `POLL_MAX` busy answers in a row: FLUSH and FLUSHDIRTY raise POLL_TIMEOUT after exactly `POLL_MAX`
status reads; nothing is sent and the dirty set is kept. `POLL_MAX` fits FINFO's 32 bits. -/
def Obligations.BusyDeviceTimesOut : Prop :=
  ∀ (s : State) (i : Instr), (i = .flush ∨ i = .flushdirty) → BusyThroughout s → s.params.pollMax < 2 ^ 32 →
    exec i s = .next { probed s s.params.pollMax with
      halt := true, fcause := 3, finfo := BitVec.ofNat 32 s.params.pollMax }

/-- R95: after a FLUSH, a FLUSHDIRTY or a synchronising drawing command that did not fault, the dirty set is empty. -/
def Obligations.DirtySetIsEmptyAfterARefresh : Prop :=
  ∀ (i : Instr) (s t : State), i.refreshes = true → exec i s = .next t → t.halt = false → ∀ k, dirtyAt t k = false

/-- R98: the traffic of a refresh, the device ready at probe read `q`: `q + 1` status reads; full: 7 bursts and `L + 13`
bytes; partial with `n` dirty bytes: `7n` bursts and `14n` bytes. -/
def Obligations.RefreshTraffic : Prop :=
  ∀ (s : State) (q : Nat), s.Accepting → ReadyAt s q →
    (∃ t ev, exec .flush s = .next t ∧ t.trace = s.trace ++ ev ∧ rxEvents ev = q + 1 ∧ txCount ev = 7 ∧
      txBytes ev = s.L + 13) ∧
    (∃ t ev, exec .flushdirty s = .next t ∧ t.trace = s.trace ++ ev ∧ rxEvents ev = q + 1 ∧
      (s.L < 7 * dcount s → txCount ev = 7 ∧ txBytes ev = s.L + 13) ∧
      (7 * dcount s ≤ s.L → txCount ev = 7 * dcount s ∧ txBytes ev = 14 * dcount s))

/-- R92: two FLUSH commands in a row with no drawing between them send the same seven bursts; only the number of status
reads may differ. -/
def Obligations.TwoFlushesSendTheSameBursts : Prop :=
  ∀ s t u : State, exec .flush s = .next t → t.halt = false → exec .flush t = .next u → u.halt = false →
    ∃ (a b : List Byte) (bursts : List (List Byte)), bursts.length = 7 ∧
      t.trace = s.trace ++ a.map (.rx s.cfgAddr) ++ bursts.map (.tx s.cfgAddr) ∧
      u.trace = t.trace ++ b.map (.rx s.cfgAddr) ++ bursts.map (.tx s.cfgAddr)

/-- R67, R91: CLEAR then FLUSH sends a data burst of `L` zero bytes. -/
def Obligations.ClearThenFlushSendsZeros : Prop :=
  ∀ s t u : State, exec .clear s = .next t → exec .flush t = .next u → u.halt = false →
    u.trace.getLast? = some (.tx s.cfgAddr (0x40 :: List.replicate s.L 0))

/-- R97: the sync tail: a drawing command with `S = 1` is the same command with `S = 0` followed by FLUSHDIRTY, run once,
whether or not anything changed; a fault before the tail leaves it out. -/
def Obligations.SyncTailIsFlushdirty : Prop :=
  ∀ (i : Instr) (s t : State), i.draws = true → s.halt = false → exec (i.withSync false) s = .next t →
    exec (i.withSync true) s = if t.halt then .next t else exec .flushdirty t

/-! ### Rules of the whole machine -/

/-- R46, R88, over all commands: the events a command adds are status reads then bursts; a burst is sent only after the
last status read answered ready and all before it busy; there are at most `POLL_MAX` status reads. -/
def Obligations.NoBurstBeforeReady : Prop :=
  ∀ (i : Instr) (s t : State), exec i s = .next t →
    ∃ (answers : List Byte) (bursts : List (List Byte)),
      t.trace = s.trace ++ answers.map (.rx s.cfgAddr) ++ bursts.map (.tx s.cfgAddr) ∧
      answers.length ≤ s.params.pollMax ∧
      (bursts ≠ [] → ∃ busy last, answers = busy ++ [last] ∧ last.getLsbD 7 = false ∧ ∀ b ∈ busy, b.getLsbD 7 = true)

/-- R28, R18, R21, R48, R97, R101, over all commands: who writes what. -/
def Obligations.WhoWritesWhat : Prop :=
  ∀ (i : Instr) (s t : State), exec i s = .next t →
    (t.cfgW = s.cfgW ∧ t.cfgH = s.cfgH ∧ t.cfgAddr = s.cfgAddr ∧ t.params = s.params ∧ t.src = s.src ∧
      t.host = s.host ∧ t.ci = s.ci ∧ t.resets = s.resets) ∧
    (i.opcode ≠ .setsrc → t.srcBase = s.srcBase ∧ t.srcW = s.srcW ∧ t.srcH = s.srcH) ∧
    (i.draws = false → i ≠ .clear → t.fb = s.fb) ∧
    (i.draws = false → i.refreshes = false → t.dirty = s.dirty) ∧
    (i.readsSource = false → i.refreshes = false → t.halt = s.halt ∧ t.fcause = s.fcause ∧ t.finfo = s.finfo) ∧
    (i.refreshes = false → t.trace = s.trace ∧ t.rxIn = s.rxIn ∧ t.rxCount = s.rxCount)

/-- R103, R109, over all commands: a command that halts the block has raised POLL_TIMEOUT, and is one that refreshes, or
SRC_ACCESS, and is one that reads source memory; then nothing of it was sent. A command that does not halt leaves the
status fields. -/
def Obligations.OnlyTheTwoExecutionFaults : Prop :=
  ∀ (i : Instr) (s t : State), s.halt = false → exec i s = .next t →
    (t.halt = true →
      (t.fcause = 3 ∧ i.refreshes = true ∧ (s.params.pollMax < 2 ^ 32 → t.finfo = BitVec.ofNat 32 s.params.pollMax)) ∨
      (t.fcause = 4 ∧ i.readsSource = true ∧ t.trace = s.trace)) ∧
    (t.halt = false → t.fcause = s.fcause ∧ t.finfo = s.finfo)

/-- R20, over all commands: dirty bits are lost only together, in a completed refresh; a command that does not refresh, or
that faults, keeps every set bit. -/
def Obligations.OnlyACompletedRefreshClearsDirtyBits : Prop :=
  ∀ (i : Instr) (s t : State) (k : Nat), s.halt = false → exec i s = .next t →
    (i.refreshes = false ∨ t.halt = true) → dirtyAt s k = true → dirtyAt t k = true

/-! ### A host that stores into source memory while a command runs -/

/-- R41: in source memory as a command finds it while the host stores `during`, a byte the host leaves alone is the old
one; a byte the host stores to once is the old or the new one, as that store's own flag says, whatever the flags of the
others (each read for itself). The rest is the model's choice: a byte it stores to several times is the old one or one
of the new ones, and when the step ends every store has landed, each byte being the last one stored to it (log 10,
DEDUCED); the same addresses are backed (log 13, DEDUCED). -/
def Obligations.RacingReadsAreOldOrNew : Prop :=
  (∀ (s : State) (during : List RacingStore) (a : Nat), (∀ r ∈ during, r.addr.toNat ≠ a) →
    Memory.read (racingView during s).src a = Memory.read s.src a) ∧
  (∀ (s : State) (before after : List RacingStore) (r : RacingStore), (∀ q ∈ before ++ after, q.addr ≠ r.addr) →
    Memory.read (racingView (before ++ r :: after) s).src r.addr.toNat =
      if r.seen then (Memory.read s.src r.addr.toNat).map fun _ => r.v else Memory.read s.src r.addr.toNat) ∧
  (∀ (s : State) (during : List RacingStore) (a : Nat) (b : Byte),
    Memory.read (racingView during s).src a = some b →
      Memory.read s.src a = some b ∨ ∃ r ∈ during, r.addr.toNat = a ∧ r.seen = true ∧ r.v = b) ∧
  (∀ (s : State) (during : List RacingStore) (a : Nat),
    Memory.read (racingView during s).src a = none ↔ Memory.read s.src a = none) ∧
  (∀ (s t : State) (w : CmdWord) (before after : List RacingStore) (r : RacingStore) (rest : List HostAction),
    s.host = .command w (before ++ r :: after) :: rest → step s = .next t → (∀ q ∈ after, q.addr ≠ r.addr) →
    Memory.read t.src r.addr.toNat = (Memory.read s.src r.addr.toNat).map fun _ => r.v)

/-- R33, R39, R84: source addresses are distinct: different samples of a bitmap are at different addresses, so are
different components of image pixels that land on the panel, and an image pixel lands on one panel pixel only. (That a
choice for each byte is a choice for each read, log 10, rests on this and on the text of the two loops.) -/
def Obligations.SourceAddressesAreDistinct : Prop :=
  (∀ (s : State) (i j : Nat), sampleAddr s i = sampleAddr s j → i = j) ∧
  (∀ (s : State) (dx dy : Int) (ix iy X Y j ix' iy' X' Y' j' : Nat), LandsAt s dx dy ix iy X Y →
    LandsAt s dx dy ix' iy' X' Y' → j < 4 → j' < 4 → imageAddr s ix iy j = imageAddr s ix' iy' j' →
    ix = ix' ∧ iy = iy' ∧ X = X' ∧ Y = Y' ∧ j = j')

/-- R41, R83: a step of DRAWBITMAP (no sync), every sample backed, while the host stores whatever it likes: every pixel
takes the colour of the old byte of its sample or of a byte the host stored there meanwhile. That one of several stores
to a sample may be the one read is the model's choice (log 10, DEDUCED). -/
def Obligations.RacingDrawbitmapReadsOldOrNew : Prop :=
  ∀ (s : State) (during : List RacingStore) (rest : List HostAction), s.Accepting →
    s.host = .command 0x060000000000000000000000 during :: rest →
    (∀ i < s.W * s.H, ∃ b, Admits s (s.srcBase.toNat + i) b) →
    ∃ t smp, step s = .next t ∧ t.halt = false ∧ Sampled s smp (s.W * s.H) t.fb t.dirty ∧
      ∀ i < s.W * s.H, Memory.read s.src (s.srcBase.toNat + i) = some (smp i) ∨
        ∃ r ∈ during, r.addr.toNat = s.srcBase.toNat + i ∧ r.seen = true ∧ r.v = smp i
end

