-- ==== Sys2Proof/Laws/State.lean ====
section
/-! SUPPORT. One lemma per field per state update, so that no proof unfolds a record update. -/

namespace Sys2Proof.Machine

/-! ### writeByte -/

@[simp] theorem writeByte_cfgW (k : Nat) (v : Byte) (s : State) : (writeByte k v s).cfgW = s.cfgW := rfl
@[simp] theorem writeByte_cfgH (k : Nat) (v : Byte) (s : State) : (writeByte k v s).cfgH = s.cfgH := rfl
@[simp] theorem writeByte_cfgAddr (k : Nat) (v : Byte) (s : State) : (writeByte k v s).cfgAddr = s.cfgAddr := rfl
@[simp] theorem writeByte_fb (k : Nat) (v : Byte) (s : State) : (writeByte k v s).fb = s.fb.set k v := rfl
@[simp] theorem writeByte_dirty (k : Nat) (v : Byte) (s : State) : (writeByte k v s).dirty = s.dirty.set k true := rfl
@[simp] theorem writeByte_srcBase (k : Nat) (v : Byte) (s : State) : (writeByte k v s).srcBase = s.srcBase := rfl
@[simp] theorem writeByte_srcW (k : Nat) (v : Byte) (s : State) : (writeByte k v s).srcW = s.srcW := rfl
@[simp] theorem writeByte_srcH (k : Nat) (v : Byte) (s : State) : (writeByte k v s).srcH = s.srcH := rfl
@[simp] theorem writeByte_halt (k : Nat) (v : Byte) (s : State) : (writeByte k v s).halt = s.halt := rfl
@[simp] theorem writeByte_fcause (k : Nat) (v : Byte) (s : State) : (writeByte k v s).fcause = s.fcause := rfl
@[simp] theorem writeByte_finfo (k : Nat) (v : Byte) (s : State) : (writeByte k v s).finfo = s.finfo := rfl
@[simp] theorem writeByte_trace (k : Nat) (v : Byte) (s : State) : (writeByte k v s).trace = s.trace := rfl
@[simp] theorem writeByte_ci (k : Nat) (v : Byte) (s : State) : (writeByte k v s).ci = s.ci := rfl
@[simp] theorem writeByte_params (k : Nat) (v : Byte) (s : State) : (writeByte k v s).params = s.params := rfl
@[simp] theorem writeByte_src (k : Nat) (v : Byte) (s : State) : (writeByte k v s).src = s.src := rfl
@[simp] theorem writeByte_host (k : Nat) (v : Byte) (s : State) : (writeByte k v s).host = s.host := rfl
@[simp] theorem writeByte_rxIn (k : Nat) (v : Byte) (s : State) : (writeByte k v s).rxIn = s.rxIn := rfl
@[simp] theorem writeByte_rxCount (k : Nat) (v : Byte) (s : State) : (writeByte k v s).rxCount = s.rxCount := rfl
@[simp] theorem writeByte_resets (k : Nat) (v : Byte) (s : State) : (writeByte k v s).resets = s.resets := rfl
@[simp] theorem writeByte_W (k : Nat) (v : Byte) (s : State) : (writeByte k v s).W = s.W := rfl
@[simp] theorem writeByte_H (k : Nat) (v : Byte) (s : State) : (writeByte k v s).H = s.H := rfl
@[simp] theorem writeByte_L (k : Nat) (v : Byte) (s : State) : (writeByte k v s).L = s.L := rfl
@[simp] theorem writeByte_pages (k : Nat) (v : Byte) (s : State) : (writeByte k v s).pages = s.pages := rfl

/-! ### clearDirty -/

@[simp] theorem clearDirty_cfgW (s : State) : (clearDirty s).cfgW = s.cfgW := rfl
@[simp] theorem clearDirty_cfgH (s : State) : (clearDirty s).cfgH = s.cfgH := rfl
@[simp] theorem clearDirty_cfgAddr (s : State) : (clearDirty s).cfgAddr = s.cfgAddr := rfl
@[simp] theorem clearDirty_fb (s : State) : (clearDirty s).fb = s.fb := rfl
@[simp] theorem clearDirty_dirty (s : State) : (clearDirty s).dirty = List.replicate s.L false := rfl
@[simp] theorem clearDirty_srcBase (s : State) : (clearDirty s).srcBase = s.srcBase := rfl
@[simp] theorem clearDirty_srcW (s : State) : (clearDirty s).srcW = s.srcW := rfl
@[simp] theorem clearDirty_srcH (s : State) : (clearDirty s).srcH = s.srcH := rfl
@[simp] theorem clearDirty_halt (s : State) : (clearDirty s).halt = s.halt := rfl
@[simp] theorem clearDirty_fcause (s : State) : (clearDirty s).fcause = s.fcause := rfl
@[simp] theorem clearDirty_finfo (s : State) : (clearDirty s).finfo = s.finfo := rfl
@[simp] theorem clearDirty_trace (s : State) : (clearDirty s).trace = s.trace := rfl
@[simp] theorem clearDirty_ci (s : State) : (clearDirty s).ci = s.ci := rfl
@[simp] theorem clearDirty_params (s : State) : (clearDirty s).params = s.params := rfl
@[simp] theorem clearDirty_src (s : State) : (clearDirty s).src = s.src := rfl
@[simp] theorem clearDirty_host (s : State) : (clearDirty s).host = s.host := rfl
@[simp] theorem clearDirty_rxIn (s : State) : (clearDirty s).rxIn = s.rxIn := rfl
@[simp] theorem clearDirty_rxCount (s : State) : (clearDirty s).rxCount = s.rxCount := rfl
@[simp] theorem clearDirty_resets (s : State) : (clearDirty s).resets = s.resets := rfl
@[simp] theorem clearDirty_W (s : State) : (clearDirty s).W = s.W := rfl
@[simp] theorem clearDirty_H (s : State) : (clearDirty s).H = s.H := rfl
@[simp] theorem clearDirty_L (s : State) : (clearDirty s).L = s.L := rfl
@[simp] theorem clearDirty_pages (s : State) : (clearDirty s).pages = s.pages := rfl

/-! ### zeroFramebuffer -/

@[simp] theorem zeroFramebuffer_cfgW (s : State) : (zeroFramebuffer s).cfgW = s.cfgW := rfl
@[simp] theorem zeroFramebuffer_cfgH (s : State) : (zeroFramebuffer s).cfgH = s.cfgH := rfl
@[simp] theorem zeroFramebuffer_cfgAddr (s : State) : (zeroFramebuffer s).cfgAddr = s.cfgAddr := rfl
@[simp] theorem zeroFramebuffer_fb (s : State) : (zeroFramebuffer s).fb = List.replicate s.L 0 := rfl
@[simp] theorem zeroFramebuffer_dirty (s : State) : (zeroFramebuffer s).dirty = s.dirty := rfl
@[simp] theorem zeroFramebuffer_srcBase (s : State) : (zeroFramebuffer s).srcBase = s.srcBase := rfl
@[simp] theorem zeroFramebuffer_srcW (s : State) : (zeroFramebuffer s).srcW = s.srcW := rfl
@[simp] theorem zeroFramebuffer_srcH (s : State) : (zeroFramebuffer s).srcH = s.srcH := rfl
@[simp] theorem zeroFramebuffer_halt (s : State) : (zeroFramebuffer s).halt = s.halt := rfl
@[simp] theorem zeroFramebuffer_fcause (s : State) : (zeroFramebuffer s).fcause = s.fcause := rfl
@[simp] theorem zeroFramebuffer_finfo (s : State) : (zeroFramebuffer s).finfo = s.finfo := rfl
@[simp] theorem zeroFramebuffer_trace (s : State) : (zeroFramebuffer s).trace = s.trace := rfl
@[simp] theorem zeroFramebuffer_ci (s : State) : (zeroFramebuffer s).ci = s.ci := rfl
@[simp] theorem zeroFramebuffer_params (s : State) : (zeroFramebuffer s).params = s.params := rfl
@[simp] theorem zeroFramebuffer_src (s : State) : (zeroFramebuffer s).src = s.src := rfl
@[simp] theorem zeroFramebuffer_host (s : State) : (zeroFramebuffer s).host = s.host := rfl
@[simp] theorem zeroFramebuffer_rxIn (s : State) : (zeroFramebuffer s).rxIn = s.rxIn := rfl
@[simp] theorem zeroFramebuffer_rxCount (s : State) : (zeroFramebuffer s).rxCount = s.rxCount := rfl
@[simp] theorem zeroFramebuffer_resets (s : State) : (zeroFramebuffer s).resets = s.resets := rfl
@[simp] theorem zeroFramebuffer_W (s : State) : (zeroFramebuffer s).W = s.W := rfl
@[simp] theorem zeroFramebuffer_H (s : State) : (zeroFramebuffer s).H = s.H := rfl
@[simp] theorem zeroFramebuffer_L (s : State) : (zeroFramebuffer s).L = s.L := rfl
@[simp] theorem zeroFramebuffer_pages (s : State) : (zeroFramebuffer s).pages = s.pages := rfl

/-! ### enterFault -/

@[simp] theorem enterFault_cfgW (c : Cause) (info : BitVec 32) (s : State) : (enterFault c info s).cfgW = s.cfgW := rfl
@[simp] theorem enterFault_cfgH (c : Cause) (info : BitVec 32) (s : State) : (enterFault c info s).cfgH = s.cfgH := rfl
@[simp] theorem enterFault_cfgAddr (c : Cause) (info : BitVec 32) (s : State) : (enterFault c info s).cfgAddr = s.cfgAddr := rfl
@[simp] theorem enterFault_fb (c : Cause) (info : BitVec 32) (s : State) : (enterFault c info s).fb = s.fb := rfl
@[simp] theorem enterFault_dirty (c : Cause) (info : BitVec 32) (s : State) : (enterFault c info s).dirty = s.dirty := rfl
@[simp] theorem enterFault_srcBase (c : Cause) (info : BitVec 32) (s : State) : (enterFault c info s).srcBase = s.srcBase := rfl
@[simp] theorem enterFault_srcW (c : Cause) (info : BitVec 32) (s : State) : (enterFault c info s).srcW = s.srcW := rfl
@[simp] theorem enterFault_srcH (c : Cause) (info : BitVec 32) (s : State) : (enterFault c info s).srcH = s.srcH := rfl
@[simp] theorem enterFault_halt (c : Cause) (info : BitVec 32) (s : State) : (enterFault c info s).halt = true := rfl
@[simp] theorem enterFault_fcause (c : Cause) (info : BitVec 32) (s : State) : (enterFault c info s).fcause = causeCode c := rfl
@[simp] theorem enterFault_finfo (c : Cause) (info : BitVec 32) (s : State) : (enterFault c info s).finfo = info := rfl
@[simp] theorem enterFault_trace (c : Cause) (info : BitVec 32) (s : State) : (enterFault c info s).trace = s.trace := rfl
@[simp] theorem enterFault_ci (c : Cause) (info : BitVec 32) (s : State) : (enterFault c info s).ci = s.ci := rfl
@[simp] theorem enterFault_params (c : Cause) (info : BitVec 32) (s : State) : (enterFault c info s).params = s.params := rfl
@[simp] theorem enterFault_src (c : Cause) (info : BitVec 32) (s : State) : (enterFault c info s).src = s.src := rfl
@[simp] theorem enterFault_host (c : Cause) (info : BitVec 32) (s : State) : (enterFault c info s).host = s.host := rfl
@[simp] theorem enterFault_rxIn (c : Cause) (info : BitVec 32) (s : State) : (enterFault c info s).rxIn = s.rxIn := rfl
@[simp] theorem enterFault_rxCount (c : Cause) (info : BitVec 32) (s : State) : (enterFault c info s).rxCount = s.rxCount := rfl
@[simp] theorem enterFault_resets (c : Cause) (info : BitVec 32) (s : State) : (enterFault c info s).resets = s.resets := rfl
@[simp] theorem enterFault_W (c : Cause) (info : BitVec 32) (s : State) : (enterFault c info s).W = s.W := rfl
@[simp] theorem enterFault_H (c : Cause) (info : BitVec 32) (s : State) : (enterFault c info s).H = s.H := rfl
@[simp] theorem enterFault_L (c : Cause) (info : BitVec 32) (s : State) : (enterFault c info s).L = s.L := rfl
@[simp] theorem enterFault_pages (c : Cause) (info : BitVec 32) (s : State) : (enterFault c info s).pages = s.pages := rfl

/-! ### receive -/

@[simp] theorem receive_cfgW (s : State) : (receive s).cfgW = s.cfgW := rfl
@[simp] theorem receive_cfgH (s : State) : (receive s).cfgH = s.cfgH := rfl
@[simp] theorem receive_cfgAddr (s : State) : (receive s).cfgAddr = s.cfgAddr := rfl
@[simp] theorem receive_fb (s : State) : (receive s).fb = s.fb := rfl
@[simp] theorem receive_dirty (s : State) : (receive s).dirty = s.dirty := rfl
@[simp] theorem receive_srcBase (s : State) : (receive s).srcBase = s.srcBase := rfl
@[simp] theorem receive_srcW (s : State) : (receive s).srcW = s.srcW := rfl
@[simp] theorem receive_srcH (s : State) : (receive s).srcH = s.srcH := rfl
@[simp] theorem receive_halt (s : State) : (receive s).halt = s.halt := rfl
@[simp] theorem receive_fcause (s : State) : (receive s).fcause = s.fcause := rfl
@[simp] theorem receive_finfo (s : State) : (receive s).finfo = s.finfo := rfl
@[simp] theorem receive_trace (s : State) : (receive s).trace = s.trace ++ [.rx s.cfgAddr (statusAt s 0)] := rfl
@[simp] theorem receive_ci (s : State) : (receive s).ci = s.ci := rfl
@[simp] theorem receive_params (s : State) : (receive s).params = s.params := rfl
@[simp] theorem receive_src (s : State) : (receive s).src = s.src := rfl
@[simp] theorem receive_host (s : State) : (receive s).host = s.host := rfl
@[simp] theorem receive_rxIn (s : State) : (receive s).rxIn = s.rxIn.drop 1 := rfl
@[simp] theorem receive_rxCount (s : State) : (receive s).rxCount = s.rxCount + 1 := rfl
@[simp] theorem receive_resets (s : State) : (receive s).resets = s.resets := rfl
@[simp] theorem receive_W (s : State) : (receive s).W = s.W := rfl
@[simp] theorem receive_H (s : State) : (receive s).H = s.H := rfl
@[simp] theorem receive_L (s : State) : (receive s).L = s.L := rfl
@[simp] theorem receive_pages (s : State) : (receive s).pages = s.pages := rfl

/-! ### transmit -/

@[simp] theorem transmit_cfgW (bursts : List (List Byte)) (s : State) : (transmit bursts s).cfgW = s.cfgW := rfl
@[simp] theorem transmit_cfgH (bursts : List (List Byte)) (s : State) : (transmit bursts s).cfgH = s.cfgH := rfl
@[simp] theorem transmit_cfgAddr (bursts : List (List Byte)) (s : State) : (transmit bursts s).cfgAddr = s.cfgAddr := rfl
@[simp] theorem transmit_fb (bursts : List (List Byte)) (s : State) : (transmit bursts s).fb = s.fb := rfl
@[simp] theorem transmit_dirty (bursts : List (List Byte)) (s : State) : (transmit bursts s).dirty = s.dirty := rfl
@[simp] theorem transmit_srcBase (bursts : List (List Byte)) (s : State) : (transmit bursts s).srcBase = s.srcBase := rfl
@[simp] theorem transmit_srcW (bursts : List (List Byte)) (s : State) : (transmit bursts s).srcW = s.srcW := rfl
@[simp] theorem transmit_srcH (bursts : List (List Byte)) (s : State) : (transmit bursts s).srcH = s.srcH := rfl
@[simp] theorem transmit_halt (bursts : List (List Byte)) (s : State) : (transmit bursts s).halt = s.halt := rfl
@[simp] theorem transmit_fcause (bursts : List (List Byte)) (s : State) : (transmit bursts s).fcause = s.fcause := rfl
@[simp] theorem transmit_finfo (bursts : List (List Byte)) (s : State) : (transmit bursts s).finfo = s.finfo := rfl
@[simp] theorem transmit_trace (bursts : List (List Byte)) (s : State) : (transmit bursts s).trace = s.trace ++ bursts.map (.tx s.cfgAddr) := rfl
@[simp] theorem transmit_ci (bursts : List (List Byte)) (s : State) : (transmit bursts s).ci = s.ci := rfl
@[simp] theorem transmit_params (bursts : List (List Byte)) (s : State) : (transmit bursts s).params = s.params := rfl
@[simp] theorem transmit_src (bursts : List (List Byte)) (s : State) : (transmit bursts s).src = s.src := rfl
@[simp] theorem transmit_host (bursts : List (List Byte)) (s : State) : (transmit bursts s).host = s.host := rfl
@[simp] theorem transmit_rxIn (bursts : List (List Byte)) (s : State) : (transmit bursts s).rxIn = s.rxIn := rfl
@[simp] theorem transmit_rxCount (bursts : List (List Byte)) (s : State) : (transmit bursts s).rxCount = s.rxCount := rfl
@[simp] theorem transmit_resets (bursts : List (List Byte)) (s : State) : (transmit bursts s).resets = s.resets := rfl
@[simp] theorem transmit_W (bursts : List (List Byte)) (s : State) : (transmit bursts s).W = s.W := rfl
@[simp] theorem transmit_H (bursts : List (List Byte)) (s : State) : (transmit bursts s).H = s.H := rfl
@[simp] theorem transmit_L (bursts : List (List Byte)) (s : State) : (transmit bursts s).L = s.L := rfl
@[simp] theorem transmit_pages (bursts : List (List Byte)) (s : State) : (transmit bursts s).pages = s.pages := rfl

/-! ### hostStore -/

@[simp] theorem hostStore_cfgW (addr : BitVec 32) (v : Byte) (s : State) : (hostStore addr v s).cfgW = s.cfgW := rfl
@[simp] theorem hostStore_cfgH (addr : BitVec 32) (v : Byte) (s : State) : (hostStore addr v s).cfgH = s.cfgH := rfl
@[simp] theorem hostStore_cfgAddr (addr : BitVec 32) (v : Byte) (s : State) : (hostStore addr v s).cfgAddr = s.cfgAddr := rfl
@[simp] theorem hostStore_fb (addr : BitVec 32) (v : Byte) (s : State) : (hostStore addr v s).fb = s.fb := rfl
@[simp] theorem hostStore_dirty (addr : BitVec 32) (v : Byte) (s : State) : (hostStore addr v s).dirty = s.dirty := rfl
@[simp] theorem hostStore_srcBase (addr : BitVec 32) (v : Byte) (s : State) : (hostStore addr v s).srcBase = s.srcBase := rfl
@[simp] theorem hostStore_srcW (addr : BitVec 32) (v : Byte) (s : State) : (hostStore addr v s).srcW = s.srcW := rfl
@[simp] theorem hostStore_srcH (addr : BitVec 32) (v : Byte) (s : State) : (hostStore addr v s).srcH = s.srcH := rfl
@[simp] theorem hostStore_halt (addr : BitVec 32) (v : Byte) (s : State) : (hostStore addr v s).halt = s.halt := rfl
@[simp] theorem hostStore_fcause (addr : BitVec 32) (v : Byte) (s : State) : (hostStore addr v s).fcause = s.fcause := rfl
@[simp] theorem hostStore_finfo (addr : BitVec 32) (v : Byte) (s : State) : (hostStore addr v s).finfo = s.finfo := rfl
@[simp] theorem hostStore_trace (addr : BitVec 32) (v : Byte) (s : State) : (hostStore addr v s).trace = s.trace := rfl
@[simp] theorem hostStore_ci (addr : BitVec 32) (v : Byte) (s : State) : (hostStore addr v s).ci = s.ci := rfl
@[simp] theorem hostStore_params (addr : BitVec 32) (v : Byte) (s : State) : (hostStore addr v s).params = s.params := rfl
@[simp] theorem hostStore_src (addr : BitVec 32) (v : Byte) (s : State) : (hostStore addr v s).src = Memory.store s.src addr.toNat v := rfl
@[simp] theorem hostStore_host (addr : BitVec 32) (v : Byte) (s : State) : (hostStore addr v s).host = s.host := rfl
@[simp] theorem hostStore_rxIn (addr : BitVec 32) (v : Byte) (s : State) : (hostStore addr v s).rxIn = s.rxIn := rfl
@[simp] theorem hostStore_rxCount (addr : BitVec 32) (v : Byte) (s : State) : (hostStore addr v s).rxCount = s.rxCount := rfl
@[simp] theorem hostStore_resets (addr : BitVec 32) (v : Byte) (s : State) : (hostStore addr v s).resets = s.resets := rfl
@[simp] theorem hostStore_W (addr : BitVec 32) (v : Byte) (s : State) : (hostStore addr v s).W = s.W := rfl
@[simp] theorem hostStore_H (addr : BitVec 32) (v : Byte) (s : State) : (hostStore addr v s).H = s.H := rfl
@[simp] theorem hostStore_L (addr : BitVec 32) (v : Byte) (s : State) : (hostStore addr v s).L = s.L := rfl
@[simp] theorem hostStore_pages (addr : BitVec 32) (v : Byte) (s : State) : (hostStore addr v s).pages = s.pages := rfl

/-! ### hostRest -/

@[simp] theorem hostRest_cfgW (s : State) : (hostRest s).cfgW = s.cfgW := rfl
@[simp] theorem hostRest_cfgH (s : State) : (hostRest s).cfgH = s.cfgH := rfl
@[simp] theorem hostRest_cfgAddr (s : State) : (hostRest s).cfgAddr = s.cfgAddr := rfl
@[simp] theorem hostRest_fb (s : State) : (hostRest s).fb = s.fb := rfl
@[simp] theorem hostRest_dirty (s : State) : (hostRest s).dirty = s.dirty := rfl
@[simp] theorem hostRest_srcBase (s : State) : (hostRest s).srcBase = s.srcBase := rfl
@[simp] theorem hostRest_srcW (s : State) : (hostRest s).srcW = s.srcW := rfl
@[simp] theorem hostRest_srcH (s : State) : (hostRest s).srcH = s.srcH := rfl
@[simp] theorem hostRest_halt (s : State) : (hostRest s).halt = s.halt := rfl
@[simp] theorem hostRest_fcause (s : State) : (hostRest s).fcause = s.fcause := rfl
@[simp] theorem hostRest_finfo (s : State) : (hostRest s).finfo = s.finfo := rfl
@[simp] theorem hostRest_trace (s : State) : (hostRest s).trace = s.trace := rfl
@[simp] theorem hostRest_ci (s : State) : (hostRest s).ci = s.ci := rfl
@[simp] theorem hostRest_params (s : State) : (hostRest s).params = s.params := rfl
@[simp] theorem hostRest_src (s : State) : (hostRest s).src = s.src := rfl
@[simp] theorem hostRest_host (s : State) : (hostRest s).host = s.host.drop 1 := rfl
@[simp] theorem hostRest_rxIn (s : State) : (hostRest s).rxIn = s.rxIn := rfl
@[simp] theorem hostRest_rxCount (s : State) : (hostRest s).rxCount = s.rxCount := rfl
@[simp] theorem hostRest_resets (s : State) : (hostRest s).resets = s.resets := rfl
@[simp] theorem hostRest_W (s : State) : (hostRest s).W = s.W := rfl
@[simp] theorem hostRest_H (s : State) : (hostRest s).H = s.H := rfl
@[simp] theorem hostRest_L (s : State) : (hostRest s).L = s.L := rfl
@[simp] theorem hostRest_pages (s : State) : (hostRest s).pages = s.pages := rfl

/-! ### racingView -/

@[simp] theorem racingView_cfgW (during : List RacingStore) (s : State) : (racingView during s).cfgW = s.cfgW := rfl
@[simp] theorem racingView_cfgH (during : List RacingStore) (s : State) : (racingView during s).cfgH = s.cfgH := rfl
@[simp] theorem racingView_cfgAddr (during : List RacingStore) (s : State) : (racingView during s).cfgAddr = s.cfgAddr := rfl
@[simp] theorem racingView_fb (during : List RacingStore) (s : State) : (racingView during s).fb = s.fb := rfl
@[simp] theorem racingView_dirty (during : List RacingStore) (s : State) : (racingView during s).dirty = s.dirty := rfl
@[simp] theorem racingView_srcBase (during : List RacingStore) (s : State) : (racingView during s).srcBase = s.srcBase := rfl
@[simp] theorem racingView_srcW (during : List RacingStore) (s : State) : (racingView during s).srcW = s.srcW := rfl
@[simp] theorem racingView_srcH (during : List RacingStore) (s : State) : (racingView during s).srcH = s.srcH := rfl
@[simp] theorem racingView_halt (during : List RacingStore) (s : State) : (racingView during s).halt = s.halt := rfl
@[simp] theorem racingView_fcause (during : List RacingStore) (s : State) : (racingView during s).fcause = s.fcause := rfl
@[simp] theorem racingView_finfo (during : List RacingStore) (s : State) : (racingView during s).finfo = s.finfo := rfl
@[simp] theorem racingView_trace (during : List RacingStore) (s : State) : (racingView during s).trace = s.trace := rfl
@[simp] theorem racingView_ci (during : List RacingStore) (s : State) : (racingView during s).ci = s.ci := rfl
@[simp] theorem racingView_params (during : List RacingStore) (s : State) : (racingView during s).params = s.params := rfl
@[simp] theorem racingView_src (during : List RacingStore) (s : State) : (racingView during s).src = Memory.storeAll s.src (during.filter fun r => r.seen) := rfl
@[simp] theorem racingView_host (during : List RacingStore) (s : State) : (racingView during s).host = s.host := rfl
@[simp] theorem racingView_rxIn (during : List RacingStore) (s : State) : (racingView during s).rxIn = s.rxIn := rfl
@[simp] theorem racingView_rxCount (during : List RacingStore) (s : State) : (racingView during s).rxCount = s.rxCount := rfl
@[simp] theorem racingView_resets (during : List RacingStore) (s : State) : (racingView during s).resets = s.resets := rfl
@[simp] theorem racingView_W (during : List RacingStore) (s : State) : (racingView during s).W = s.W := rfl
@[simp] theorem racingView_H (during : List RacingStore) (s : State) : (racingView during s).H = s.H := rfl
@[simp] theorem racingView_L (during : List RacingStore) (s : State) : (racingView during s).L = s.L := rfl
@[simp] theorem racingView_pages (during : List RacingStore) (s : State) : (racingView during s).pages = s.pages := rfl

/-! ### landStores -/

@[simp] theorem landStores_cfgW (during : List RacingStore) (m : Memory) (t : State) : (landStores during m t).cfgW = t.cfgW := rfl
@[simp] theorem landStores_cfgH (during : List RacingStore) (m : Memory) (t : State) : (landStores during m t).cfgH = t.cfgH := rfl
@[simp] theorem landStores_cfgAddr (during : List RacingStore) (m : Memory) (t : State) : (landStores during m t).cfgAddr = t.cfgAddr := rfl
@[simp] theorem landStores_fb (during : List RacingStore) (m : Memory) (t : State) : (landStores during m t).fb = t.fb := rfl
@[simp] theorem landStores_dirty (during : List RacingStore) (m : Memory) (t : State) : (landStores during m t).dirty = t.dirty := rfl
@[simp] theorem landStores_srcBase (during : List RacingStore) (m : Memory) (t : State) : (landStores during m t).srcBase = t.srcBase := rfl
@[simp] theorem landStores_srcW (during : List RacingStore) (m : Memory) (t : State) : (landStores during m t).srcW = t.srcW := rfl
@[simp] theorem landStores_srcH (during : List RacingStore) (m : Memory) (t : State) : (landStores during m t).srcH = t.srcH := rfl
@[simp] theorem landStores_halt (during : List RacingStore) (m : Memory) (t : State) : (landStores during m t).halt = t.halt := rfl
@[simp] theorem landStores_fcause (during : List RacingStore) (m : Memory) (t : State) : (landStores during m t).fcause = t.fcause := rfl
@[simp] theorem landStores_finfo (during : List RacingStore) (m : Memory) (t : State) : (landStores during m t).finfo = t.finfo := rfl
@[simp] theorem landStores_trace (during : List RacingStore) (m : Memory) (t : State) : (landStores during m t).trace = t.trace := rfl
@[simp] theorem landStores_ci (during : List RacingStore) (m : Memory) (t : State) : (landStores during m t).ci = t.ci := rfl
@[simp] theorem landStores_params (during : List RacingStore) (m : Memory) (t : State) : (landStores during m t).params = t.params := rfl
@[simp] theorem landStores_src (during : List RacingStore) (m : Memory) (t : State) : (landStores during m t).src = Memory.storeAll m during := rfl
@[simp] theorem landStores_host (during : List RacingStore) (m : Memory) (t : State) : (landStores during m t).host = t.host := rfl
@[simp] theorem landStores_rxIn (during : List RacingStore) (m : Memory) (t : State) : (landStores during m t).rxIn = t.rxIn := rfl
@[simp] theorem landStores_rxCount (during : List RacingStore) (m : Memory) (t : State) : (landStores during m t).rxCount = t.rxCount := rfl
@[simp] theorem landStores_resets (during : List RacingStore) (m : Memory) (t : State) : (landStores during m t).resets = t.resets := rfl
@[simp] theorem landStores_W (during : List RacingStore) (m : Memory) (t : State) : (landStores during m t).W = t.W := rfl
@[simp] theorem landStores_H (during : List RacingStore) (m : Memory) (t : State) : (landStores during m t).H = t.H := rfl
@[simp] theorem landStores_L (during : List RacingStore) (m : Memory) (t : State) : (landStores during m t).L = t.L := rfl
@[simp] theorem landStores_pages (during : List RacingStore) (m : Memory) (t : State) : (landStores during m t).pages = t.pages := rfl

/-- With no store meanwhile a command finds the state as it is. -/
@[simp] theorem racingView_nil (s : State) : racingView [] s = s := rfl

end Sys2Proof.Machine
end

