-- ==== Sys2Proof/Laws/Picture.lean ====
section
/-! SUPPORT. What a drawing operation can do to a state: it repaints the picture and marks bytes dirty, nothing else. -/

namespace Sys2Proof.Machine

/-- `t` is `s` with another picture: only `FB` and `DIRTY` differ, their lengths are kept, no mark is lost. -/
structure Repainted (s t : State) : Prop where
  frame : t = { s with fb := t.fb, dirty := t.dirty }
  fb_length : t.fb.length = s.fb.length
  dirty_length : t.dirty.length = s.dirty.length
  keeps_marks : ∀ k, dirtyAt s k = true → dirtyAt t k = true

theorem Repainted.refl (s : State) : Repainted s s := ⟨rfl, rfl, rfl, fun _ h => h⟩

theorem Repainted.trans {s t u : State} (h : Repainted s t) (g : Repainted t u) : Repainted s u where
  frame := by rw [g.frame, h.frame]
  fb_length := g.fb_length.trans h.fb_length
  dirty_length := g.dirty_length.trans h.dirty_length
  keeps_marks k hk := g.keeps_marks k (h.keeps_marks k hk)

section
variable {s t : State} (h : Repainted s t)
include h
theorem Repainted.cfgW : t.cfgW = s.cfgW := by rw [h.frame]
theorem Repainted.cfgH : t.cfgH = s.cfgH := by rw [h.frame]
theorem Repainted.cfgAddr : t.cfgAddr = s.cfgAddr := by rw [h.frame]
theorem Repainted.srcBase : t.srcBase = s.srcBase := by rw [h.frame]
theorem Repainted.srcW : t.srcW = s.srcW := by rw [h.frame]
theorem Repainted.srcH : t.srcH = s.srcH := by rw [h.frame]
theorem Repainted.halt : t.halt = s.halt := by rw [h.frame]
theorem Repainted.fcause : t.fcause = s.fcause := by rw [h.frame]
theorem Repainted.finfo : t.finfo = s.finfo := by rw [h.frame]
theorem Repainted.trace : t.trace = s.trace := by rw [h.frame]
theorem Repainted.ci : t.ci = s.ci := by rw [h.frame]
theorem Repainted.params : t.params = s.params := by rw [h.frame]
theorem Repainted.src : t.src = s.src := by rw [h.frame]
theorem Repainted.host : t.host = s.host := by rw [h.frame]
theorem Repainted.rxIn : t.rxIn = s.rxIn := by rw [h.frame]
theorem Repainted.rxCount : t.rxCount = s.rxCount := by rw [h.frame]
theorem Repainted.resets : t.resets = s.resets := by rw [h.frame]
theorem Repainted.W : t.W = s.W := by rw [h.frame]; rfl
theorem Repainted.H : t.H = s.H := by rw [h.frame]; rfl
theorem Repainted.L : t.L = s.L := by rw [h.frame]; rfl
theorem Repainted.pages : t.pages = s.pages := by rw [h.frame]; rfl
end

/-- A byte write sets the dirty bit it names, if there is one, and keeps every other. -/
theorem dirtyAt_writeByte (k j : Nat) (v : Byte) (s : State) :
    dirtyAt (writeByte k v s) j = if j = k ∧ k < s.dirty.length then true else dirtyAt s j := by
  simp only [dirtyAt, writeByte_dirty, List.getD_eq_getElem?_getD, List.getElem?_set]
  split <;> split <;> simp_all

/-- A byte write changes the byte it names, if there is one, and no other. -/
theorem fbAt_writeByte (k j : Nat) (v : Byte) (s : State) :
    fbAt (writeByte k v s) j = if j = k ∧ k < s.fb.length then v else fbAt s j := by
  simp only [fbAt, writeByte_fb, List.getD_eq_getElem?_getD, List.getElem?_set]
  split <;> split <;> simp_all

theorem writeByte_repainted (k : Nat) (v : Byte) (s : State) : Repainted s (writeByte k v s) where
  frame := rfl
  fb_length := by simp
  dirty_length := by simp
  keeps_marks j hj := by rw [dirtyAt_writeByte]; split <;> simp_all

/-- Off the panel nothing; on the panel one byte painted and marked (R64). -/
theorem setPixel_cases (c : Colour) (x y : Int) (s : State) :
    (onPanel s x y = false ∧ setPixel c x y s = s) ∨
    (onPanel s x y = true ∧ setPixel c x y s =
      writeByte (byteIndex s x.toNat y.toNat)
        (paintByte c (bitMask y.toNat) (fbAt s (byteIndex s x.toNat y.toNat))) s) := by
  unfold setPixel
  cases h : onPanel s x y <;> simp

theorem setPixel_repainted (c : Colour) (x y : Int) (s : State) : Repainted s (setPixel c x y s) := by
  obtain ⟨_, h⟩ | ⟨_, h⟩ := setPixel_cases c x y s <;> rw [h]
  · exact .refl s
  · exact writeByte_repainted _ _ s

/-- A fold of repaintings is a repainting. -/
theorem foldl_repainted {α : Type} (f : State → α → State) (hf : ∀ t a, Repainted t (f t a)) :
    ∀ (l : List α) (s : State), Repainted s (l.foldl f s)
  | [], s => .refl s
  | a :: l, s => (hf s a).trans (foldl_repainted f hf l (f s a))

theorem setPixels_repainted (c : Colour) (ps : List (Int × Int)) (s : State) : Repainted s (setPixels c ps s) :=
  foldl_repainted (fun t (p : Int × Int) => setPixel c p.1 p.2 t) (fun t p => setPixel_repainted c p.1 p.2 t) ps s

theorem line_repainted (c : Colour) (x0 y0 x1 y1 : Int) (s : State) : Repainted s (line c x0 y0 x1 y1 s) :=
  setPixels_repainted c _ s

theorem rect_repainted (f : Fill) (c : Colour) (x y w h : Int) (s : State) : Repainted s (rect f c x y w h s) := by
  unfold rect
  split
  · cases f
    · exact (((line_repainted c _ _ _ _ s).trans (line_repainted c _ _ _ _ _)).trans
        (line_repainted c _ _ _ _ _)).trans (line_repainted c _ _ _ _ _)
    · exact foldl_repainted _ (fun t i => line_repainted c _ _ _ _ t) _ s
  · exact .refl s

theorem circle_repainted (f : Fill) (c : Colour) (cx cy r : Int) (s : State) :
    Repainted s (circle f c cx cy r s) := by
  cases f
  · exact foldl_repainted _ (fun t p => setPixels_repainted c _ t) _ s
  · exact foldl_repainted _ (fun t p => (((line_repainted c _ _ _ _ t).trans (line_repainted c _ _ _ _ _)).trans
      (line_repainted c _ _ _ _ _)).trans (line_repainted c _ _ _ _ _)) _ s

/-- DRAWBITMAP's loop repaints and goes on, or repaints and raises SRC_ACCESS (R83, R108 (b)). -/
theorem bitmapLoop_cases : ∀ (l : List Nat) (s : State),
    (∃ t, Repainted s t ∧ bitmapLoop l s = .go t) ∨
    (∃ t addr, Repainted s t ∧ bitmapLoop l s = .abandoned (enterFault .srcAccess (srcAccessInfo addr) t))
  | [], s => .inl ⟨s, .refl s, rfl⟩
  | i :: l, s => by
    unfold bitmapLoop
    split
    · next addr _ => exact .inr ⟨s, addr, .refl s, rfl⟩
    · next v _ =>
      have hp := setPixel_repainted (sampleColour v) (i % s.W : Nat) (i / s.W : Nat) s
      obtain ⟨t, ht, e⟩ | ⟨t, addr, ht, e⟩ := bitmapLoop_cases l (setPixel (sampleColour v) (i % s.W : Nat) (i / s.W : Nat) s)
      · exact .inl ⟨t, hp.trans ht, e⟩
      · exact .inr ⟨t, addr, hp.trans ht, e⟩

theorem commitByte_repainted (k : Nat) (v : Byte) (s : State) : Repainted s (commitByte k v s) := by
  unfold commitByte
  split
  · exact .refl s
  · exact writeByte_repainted k v s

/-- DRAWIMAGE's loop repaints and goes on, or repaints and raises SRC_ACCESS (R86, R108 (c)). -/
theorem imageLoop_cases (dx dy : Int) : ∀ (l : List Nat) (s : State),
    (∃ t, Repainted s t ∧ imageLoop dx dy l s = .go t) ∨
    (∃ t addr, Repainted s t ∧ imageLoop dx dy l s = .abandoned (enterFault .srcAccess (srcAccessInfo addr) t))
  | [], s => .inl ⟨s, .refl s, rfl⟩
  | k :: l, s => by
    unfold imageLoop
    split
    · next addr _ => exact .inr ⟨s, addr, .refl s, rfl⟩
    · next v _ =>
      obtain ⟨t, ht, e⟩ | ⟨t, addr, ht, e⟩ := imageLoop_cases dx dy l (commitByte k v s)
      · exact .inl ⟨t, (commitByte_repainted k v s).trans ht, e⟩
      · exact .inr ⟨t, addr, (commitByte_repainted k v s).trans ht, e⟩

end Sys2Proof.Machine
end

