-- ==== Sys2Proof/Laws/Drawing.lean ====
section
/-! SUPPORT. What drawing a set of points makes of the picture: the spec lemma of `SetPixel` (R64, R65) and its lists. -/

namespace Sys2Proof.Machine

/-- The panel's facts that addressing rests on: a supported geometry and stores of the right length (R5, R18, R20). -/
structure State.Panel (s : State) : Prop where
  supported : supportedGeometry s.cfgW s.cfgH = true
  fb_length : s.fb.length = s.L
  dirty_length : s.dirty.length = s.L

theorem State.Accepting.panel {s : State} (h : s.Accepting) : s.Panel where
  supported := by
    cases hg : supportedGeometry s.cfgW s.cfgH with
    | true => rfl
    | false =>
      have h1 := h.config_fault.1 hg
      have h2 := h.halt_iff.2 (by rw [h1]; decide)
      rw [h.not_halted] at h2
      exact absurd h2 (by decide)
  fb_length := h.fb_length
  dirty_length := h.dirty_length

/-- The three geometries (R5). -/
theorem supported_cases {w h : Byte} (hs : supportedGeometry w h = true) :
    (w = 128 ∧ h = 32) ∨ (w = 128 ∧ h = 64) ∨ (w = 96 ∧ h = 16) := by
  simpa [supportedGeometry, Bool.or_eq_true, or_assoc] using hs

/-- On a supported panel W, H and L are numbers of the table of R5. -/
theorem State.Panel.sizes {s : State} (h : s.Panel) :
    (s.W = 128 ∧ s.H = 32 ∧ s.L = 512) ∨ (s.W = 128 ∧ s.H = 64 ∧ s.L = 1024) ∨ (s.W = 96 ∧ s.H = 16 ∧ s.L = 192) := by
  obtain ⟨h1, h2⟩ | ⟨h1, h2⟩ | ⟨h1, h2⟩ := supported_cases h.supported <;>
    simp [State.W, State.H, State.L, fbLength, h1, h2]

theorem byteIndex_lt {s : State} (hp : s.Panel) {x y : Nat} (hx : x < s.W) (hy : y < s.H) : x + s.W * (y / 8) < s.L := by
  obtain ⟨h1, h2, h3⟩ | ⟨h1, h2, h3⟩ | ⟨h1, h2, h3⟩ := hp.sizes <;> rw [h1] at hx ⊢ <;> rw [h2] at hy <;> rw [h3] <;>
    omega

/-- Two panel pixels in one byte lie in one column and one page (R19). -/
theorem byteIndex_inj {w x y x' y' : Nat} (hx : x < w) (hx' : x' < w) (h : x + w * (y / 8) = x' + w * (y' / 8)) :
    x = x' ∧ y / 8 = y' / 8 := by
  have h1 := congrArg (· % w) h
  simp only [Nat.add_mul_mod_self_left, Nat.mod_eq_of_lt hx, Nat.mod_eq_of_lt hx'] at h1
  refine ⟨h1, ?_⟩
  subst h1
  exact Nat.eq_of_mul_eq_mul_left (by omega) (Nat.add_left_cancel h)

theorem onPanel_iff (s : State) (x y : Int) : onPanel s x y = true ↔ 0 ≤ x ∧ x < s.W ∧ 0 ≤ y ∧ y < s.H := by
  simp [onPanel, and_assoc]

theorem getLsbD_bitMask (y j : Nat) (hj : j < 8) : (bitMask y).getLsbD j = decide (j = y % 8) := by
  have hy : y % 8 < 8 := Nat.mod_lt _ (by omega)
  simp only [bitMask]
  generalize y % 8 = r at hy
  interval_cases r <;> interval_cases j <;> rfl

/-- A painted byte: the masked bit takes the colour, the other seven keep theirs (R64, R65 (a)). -/
theorem getLsbD_paintByte (c : Colour) (y j : Nat) (old : Byte) (hj : j < 8) :
    (paintByte c (bitMask y) old).getLsbD j = if j = y % 8 then colourBit c else old.getLsbD j := by
  cases c <;> simp only [paintByte, BitVec.getLsbD_or, BitVec.getLsbD_and, BitVec.getLsbD_not, getLsbD_bitMask y j hj,
    colourBit] <;> split <;> simp_all

/-- Nothing drawn: the picture as it is. -/
theorem Drawn.none {P : Int → Int → Prop} {c : Colour} {s : State} (hf : s.fb.length = s.L) (hd : s.dirty.length = s.L)
    (h : ∀ x y : Nat, x < s.W → y < s.H → ¬P x y) : Drawn P c s s.fb s.dirty where
  fb_length := hf
  dirty_length := hd
  plotted x y hx hy hp := absurd hp (h x y hx hy)
  kept _ _ _ _ _ := rfl
  marked _ _ := ⟨.inl, fun g => g.elim id fun ⟨x, y, hx, hy, hp, _⟩ => absurd hp (h x y hx hy)⟩

/-- Only the plotted points of the panel matter. -/
theorem Drawn.congr {P Q : Int → Int → Prop} {c : Colour} {s : State} {fb : List Byte} {dirty : List Bool}
    (h : Drawn P c s fb dirty) (hq : ∀ x y : Nat, x < s.W → y < s.H → (P x y ↔ Q x y)) : Drawn Q c s fb dirty where
  fb_length := h.fb_length
  dirty_length := h.dirty_length
  plotted x y hx hy hp := h.plotted x y hx hy ((hq x y hx hy).2 hp)
  kept x y hx hy hp := h.kept x y hx hy fun g => hp ((hq x y hx hy).1 g)
  marked k hk := (h.marked k hk).trans (or_congr_right
    ⟨fun ⟨x, y, hx, hy, hp, e⟩ => ⟨x, y, hx, hy, (hq x y hx hy).1 hp, e⟩,
     fun ⟨x, y, hx, hy, hp, e⟩ => ⟨x, y, hx, hy, (hq x y hx hy).2 hp, e⟩⟩)

/-- The spec lemma of `SetPixel` (R64). -/
theorem setPixel_drawn (c : Colour) (x y : Int) {s : State} (hp : s.Panel) :
    Drawn (fun X Y => X = x ∧ Y = y) c s (setPixel c x y s).fb (setPixel c x y s).dirty := by
  obtain ⟨ho, e⟩ | ⟨ho, e⟩ := setPixel_cases c x y s
  · rw [e]
    refine Drawn.none hp.fb_length hp.dirty_length fun X Y hX hY ⟨h1, h2⟩ => ?_
    rw [Bool.eq_false_iff, ne_eq, onPanel_iff] at ho
    omega
  · rw [onPanel_iff] at ho
    obtain ⟨a, rfl⟩ := Int.eq_ofNat_of_zero_le ho.1
    obtain ⟨b, rfl⟩ := Int.eq_ofNat_of_zero_le ho.2.2.1
    have ha : a < s.W := by omega
    have hb : b < s.H := by omega
    have hk : a + s.W * (b / 8) < s.L := byteIndex_lt hp ha hb
    have hbi : byteIndex s (a : Int).toNat (b : Int).toNat = a + s.W * (b / 8) := rfl
    rw [hbi] at e
    have hpix : ∀ x y : Nat, x < s.W → y < s.H → pixelAt s.W (setPixel c a b s).fb x y =
        if x = a ∧ y = b then colourBit c else pixelAt s.W s.fb x y := by
      intro x y hx hy
      have hy8 : y % 8 < 8 := Nat.mod_lt _ (by omega)
      rw [e]
      show (fbAt (writeByte _ _ s) (x + s.W * (y / 8))).getLsbD (y % 8) = _
      rw [fbAt_writeByte]
      by_cases h : x + s.W * (y / 8) = a + s.W * (b / 8) ∧ a + s.W * (b / 8) < s.fb.length
      · rw [if_pos h]
        obtain ⟨h1, h2⟩ := byteIndex_inj hx ha h.1
        rw [Int.toNat_natCast, getLsbD_paintByte _ _ _ _ hy8]
        by_cases h3 : y % 8 = b % 8
        · rw [if_pos h3, if_pos ⟨h1, by omega⟩]
        · rw [if_neg h3, if_neg (by rintro ⟨_, rfl⟩; exact h3 rfl), ← h.1]; rfl
      · rw [if_neg h]
        rw [if_neg (by rintro ⟨rfl, rfl⟩; exact h ⟨rfl, by rw [hp.fb_length]; exact hk⟩)]; rfl
    refine ⟨?_, ?_, ?_, ?_, ?_⟩
    · rw [(setPixel_repainted c a b s).fb_length, hp.fb_length]
    · rw [(setPixel_repainted c a b s).dirty_length, hp.dirty_length]
    · rintro x y hx hy ⟨h1, h2⟩
      rw [hpix x y hx hy, if_pos ⟨by omega, by omega⟩]
    · rintro x y hx hy h
      rw [hpix x y hx hy, if_neg (by rintro ⟨rfl, rfl⟩; exact h ⟨rfl, rfl⟩)]
    · intro k hk'
      show dirtyAt (setPixel c a b s) k = true ↔ _
      rw [e, dirtyAt_writeByte, hp.dirty_length]
      split
      · next h => exact ⟨fun _ => .inr ⟨a, b, ha, hb, ⟨rfl, rfl⟩, h.1.symm⟩, fun _ => rfl⟩
      · next h =>
        refine ⟨.inl, fun g => g.elim id fun ⟨x, y, _, _, ⟨h1, h2⟩, h3⟩ => absurd ⟨?_, hk⟩ h⟩
        obtain rfl : x = a := by omega
        obtain rfl : y = b := by omega
        exact h3.symm

theorem Repainted.panel {s t : State} (h : Repainted s t) (hp : s.Panel) : t.Panel where
  supported := by rw [h.cfgW, h.cfgH]; exact hp.supported
  fb_length := by rw [h.fb_length, h.L]; exact hp.fb_length
  dirty_length := by rw [h.dirty_length, h.L]; exact hp.dirty_length

/-- Drawing one set of points after another in one colour is drawing their union (R65 (c)). -/
theorem Drawn.andThen {P Q : Int → Int → Prop} {c : Colour} {s t : State} {fb : List Byte} {dirty : List Bool}
    (ht : Repainted s t) (h : Drawn P c s t.fb t.dirty) (g : Drawn Q c t fb dirty) :
    Drawn (fun x y => P x y ∨ Q x y) c s fb dirty where
  fb_length := g.fb_length.trans ht.L
  dirty_length := g.dirty_length.trans ht.L
  plotted x y hx hy hp := by
    by_cases hq : Q x y
    · rw [← ht.W]; exact g.plotted x y (ht.W ▸ hx) (ht.H ▸ hy) hq
    · have := g.kept x y (ht.W ▸ hx) (ht.H ▸ hy) hq
      rw [ht.W] at this
      rw [this]
      exact h.plotted x y hx hy (hp.resolve_right hq)
  kept x y hx hy hp := by
    have := g.kept x y (ht.W ▸ hx) (ht.H ▸ hy) fun hq => hp (.inr hq)
    rw [ht.W] at this
    rw [this]
    exact h.kept x y hx hy fun hq => hp (.inl hq)
  marked k hk := by
    have h1 := g.marked k (ht.L ▸ hk)
    have h2 := h.marked k hk
    rw [ht.W, ht.H] at h1
    rw [h1]
    have h3 : dirtyAt t k = true ↔ t.dirty.getD k false = true := Iff.rfl
    rw [h3, h2]
    constructor
    · rintro ((hd | ⟨x, y, hx, hy, hp, e⟩) | ⟨x, y, hx, hy, hp, e⟩)
      · exact .inl hd
      · exact .inr ⟨x, y, hx, hy, .inl hp, e⟩
      · exact .inr ⟨x, y, hx, hy, .inr hp, e⟩
    · rintro (hd | ⟨x, y, hx, hy, hp | hp, e⟩)
      · exact .inl (.inl hd)
      · exact .inl (.inr ⟨x, y, hx, hy, hp, e⟩)
      · exact .inr ⟨x, y, hx, hy, hp, e⟩

/-- A fold of drawings draws the union. -/
theorem foldl_drawn {α : Type} (c : Colour) (f : State → α → State) (P : α → Int → Int → Prop)
    (hf : ∀ t a, Repainted t (f t a)) (hd : ∀ t a, t.Panel → Drawn (P a) c t (f t a).fb (f t a).dirty) :
    ∀ (l : List α) (s : State), s.Panel →
      Drawn (fun x y => ∃ a ∈ l, P a x y) c s (l.foldl f s).fb (l.foldl f s).dirty
  | [], s, hp => Drawn.none hp.fb_length hp.dirty_length (by simp)
  | a :: l, s, hp => by
    have h := Drawn.andThen (hf s a) (hd s a hp) (foldl_drawn c f P hf hd l (f s a) ((hf s a).panel hp))
    exact h.congr (by simp)

/-- The spec lemma of `SetPixel` over a list of points. -/
theorem setPixels_drawn (c : Colour) (ps : List (Int × Int)) {s : State} (hp : s.Panel) :
    Drawn (fun x y => (x, y) ∈ ps) c s (setPixels c ps s).fb (setPixels c ps s).dirty := by
  have h := foldl_drawn c (fun t (p : Int × Int) => setPixel c p.1 p.2 t) (fun p X Y => X = p.1 ∧ Y = p.2)
    (fun t p => setPixel_repainted c p.1 p.2 t) (fun t p ht => setPixel_drawn c p.1 p.2 ht) ps s hp
  refine h.congr fun x y _ _ => ?_
  constructor
  · rintro ⟨p, hm, h1, h2⟩; rw [h1, h2]; exact hm
  · intro hm; exact ⟨_, hm, rfl, rfl⟩

end Sys2Proof.Machine
end

