-- ==== Sys2Proof/Laws/Memory.lean ====
section
/-! SUPPORT. Source memory: every operation keeps the canonical form; read after store; what a read can answer. -/

namespace Sys2Proof.Machine

theorem Memory.store_risesFrom (a : Nat) (v : Byte) : ∀ (m : Memory) (lo : Nat),
    Memory.risesFrom lo (Memory.store m a v) = Memory.risesFrom lo m
  | [], _ => rfl
  | c :: m, lo => by
    have h := Memory.store_risesFrom a v m (c.1 + 1)
    simp only [Memory.store, List.map_cons, Memory.risesFrom] at h ⊢
    split <;> simp_all

/-- A store keeps the canonical form. -/
theorem Memory.store_wf (m : Memory) (a : Nat) (v : Byte) : (Memory.store m a v).wf = m.wf :=
  Memory.store_risesFrom a v m 0

/-- A read after a store: the byte stored where the address is admitted, every other address as before, and the same
addresses admitted. -/
theorem Memory.read_store (m : Memory) (a b : Nat) (v : Byte) :
    Memory.read (Memory.store m a v) b = if b = a then (Memory.read m b).map (fun _ => v) else Memory.read m b := by
  induction m with
  | nil => simp [Memory.store, Memory.read, Memory.unlisted]
  | cons c m ih =>
    simp only [Memory.store, List.map_cons, Memory.read] at ih ⊢
    by_cases hca : c.1 = a <;> by_cases hcb : c.1 = b <;> by_cases hba : b = a <;> simp_all

/-- Any number of stores keeps the canonical form. -/
theorem Memory.storeAll_wf : ∀ (l : List RacingStore) (m : Memory), (Memory.storeAll m l).wf = m.wf
  | [], _ => rfl
  | r :: l, m => (Memory.storeAll_wf l (Memory.store m r.addr.toNat r.v)).trans (Memory.store_wf m _ _)

theorem Memory.storeAll_cons (m : Memory) (r : RacingStore) (l : List RacingStore) :
    Memory.storeAll m (r :: l) = Memory.storeAll (Memory.store m r.addr.toNat r.v) l := rfl

theorem Memory.storeAll_append (m : Memory) (l k : List RacingStore) :
    Memory.storeAll m (l ++ k) = Memory.storeAll (Memory.storeAll m l) k := List.foldl_append

/-- Everything a read can find after several stores: with no store there, the byte as it was; else, at a backed address,
the byte of the last store there. -/
theorem Memory.read_storeAll (a : Nat) : ∀ (l : List RacingStore) (m : Memory),
    ((∀ r ∈ l, r.addr.toNat ≠ a) ∧ Memory.read (Memory.storeAll m l) a = Memory.read m a) ∨
    (∃ before r after, l = before ++ r :: after ∧ r.addr.toNat = a ∧ (∀ q ∈ after, q.addr.toNat ≠ a) ∧
      Memory.read (Memory.storeAll m l) a = (Memory.read m a).map fun _ => r.v)
  | [], _ => .inl ⟨by simp, rfl⟩
  | r :: l, m => by
    rw [Memory.storeAll_cons]
    have hs := Memory.read_store m r.addr.toNat a r.v
    obtain ⟨h, e⟩ | ⟨b, q, c, hl, hq, hc, e⟩ := Memory.read_storeAll a l (Memory.store m r.addr.toNat r.v) <;>
      rw [hs] at e
    · by_cases hr : a = r.addr.toNat
      · exact .inr ⟨[], r, l, rfl, hr.symm, h, by rw [e, if_pos hr]⟩
      · refine .inl ⟨?_, by rw [e, if_neg hr]⟩
        rintro q (_ | ⟨_, hq⟩)
        · exact fun g => hr g.symm
        · exact h q hq
    · refine .inr ⟨r :: b, q, c, by rw [hl]; rfl, hq, hc, ?_⟩
      rw [e]
      split
      · cases Memory.read m a <;> rfl
      · rfl

/-- What a source read can answer (R40). -/
theorem memRead_cases (s : State) (addr : Nat) :
    (∃ b, addr < 2 ^ 32 ∧ Memory.read s.src addr = some b ∧ memRead s addr = .ok b) ∨
    ((2 ^ 32 ≤ addr ∨ Memory.read s.src addr = none) ∧ memRead s addr = .error addr) := by
  unfold memRead
  split
  · next h => exact .inr ⟨.inl h, rfl⟩
  · next h =>
    cases hr : Memory.read s.src addr with
    | none => exact .inr ⟨.inr rfl, by simp⟩
    | some b => exact .inl ⟨b, by omega, rfl, by simp⟩

end Sys2Proof.Machine
end

