-- ==== Sys2Proof/Laws/Bitmap.lean ====
section
/-! SUPPORT. The spec lemma of DRAWBITMAP's sample loop (R83, R108 (b)). -/

namespace Sys2Proof.Machine

theorem memRead_of_admits {s : State} {a : Nat} {b : Byte} (h : Admits s a b) : memRead s a = .ok b := by
  have h1 := h.1
  rw [memRead, if_neg (by omega), h.2]

theorem memRead_of_refuses {s : State} {a : Nat} (h : Refuses s a) : memRead s a = .error a := by
  obtain ⟨b, h1, h2, _⟩ | ⟨_, e⟩ := memRead_cases s a
  · rcases h with h | h
    · omega
    · rw [h] at h2; cases h2
  · exact e

theorem Repainted.memRead {s t : State} (h : Repainted s t) (a : Nat) : memRead t a = memRead s a := by
  simp only [Sys2Proof.Machine.memRead, h.src]

theorem Repainted.sampleAddr {s t : State} (h : Repainted s t) (i : Nat) : sampleAddr t i = sampleAddr s i := by
  simp only [Sys2Proof.Machine.sampleAddr, h.srcBase]

/-- No sample written: the picture as it is. -/
theorem Sampled.zero {s : State} (hp : s.Panel) (smp : Nat → Byte) : Sampled s smp 0 s.fb s.dirty where
  fb_length := hp.fb_length
  dirty_length := hp.dirty_length
  written x y _ _ h := absurd h (by omega)
  kept _ _ _ _ _ := rfl
  marked k _ := ⟨.inl, fun g => g.elim id fun ⟨x, y, _, _, h, _⟩ => absurd h (by omega)⟩

/-- The pixel of sample `n` (R83). -/
theorem sample_pixel {w x y n : Nat} (hx : x < w) : x = n % w ∧ y = n / w ↔ y * w + x = n := by
  constructor
  · rintro ⟨rfl, rfl⟩; rw [Nat.mul_comm]; exact Nat.div_add_mod n w
  · rintro rfl
    rw [Nat.mul_comm, Nat.mul_add_mod, Nat.mod_eq_of_lt hx, Nat.mul_add_div (by omega), Nat.div_eq_of_lt hx]
    exact ⟨rfl, rfl⟩

/-- Sample `n` written after samples `0 .. n-1`. -/
theorem Sampled.succ {s t : State} {smp : Nat → Byte} {n : Nat} (hp : s.Panel) (ht : Repainted s t)
    (h : Sampled s smp n t.fb t.dirty) :
    Sampled s smp (n + 1) (setPixel (sampleColour (smp n)) (n % s.W : Nat) (n / s.W : Nat) t).fb
      (setPixel (sampleColour (smp n)) (n % s.W : Nat) (n / s.W : Nat) t).dirty := by
  have g := setPixel_drawn (sampleColour (smp n)) (n % s.W : Nat) (n / s.W : Nat) (ht.panel hp)
  have hcol : colourBit (sampleColour (smp n)) = decide (smp n ≠ 0) := by
    unfold sampleColour; split <;> simp_all [colourBit]
  have hiff : ∀ x y : Nat, x < s.W →
      (((x : Int) = (n % s.W : Nat) ∧ (y : Int) = (n / s.W : Nat)) ↔ y * s.W + x = n) := by
    intro x y hx
    rw [← sample_pixel hx]
    omega
  refine ⟨g.fb_length.trans ht.L, g.dirty_length.trans ht.L, ?_, ?_, ?_⟩
  · intro x y hx hy hn
    by_cases e : y * s.W + x = n
    · have := g.plotted x y (ht.W ▸ hx) (ht.H ▸ hy) ((hiff x y hx).2 e)
      rw [ht.W] at this
      rw [this, hcol, e]
    · have := g.kept x y (ht.W ▸ hx) (ht.H ▸ hy) (fun q => e ((hiff x y hx).1 q))
      rw [ht.W] at this
      rw [this]
      exact h.written x y hx hy (by omega)
  · intro x y hx hy hn
    have := g.kept x y (ht.W ▸ hx) (ht.H ▸ hy) (fun q => by have := (hiff x y hx).1 q; omega)
    rw [ht.W] at this
    rw [this]
    exact h.kept x y hx hy (by omega)
  · intro k hk
    have h1 := g.marked k (ht.L ▸ hk)
    rw [ht.W, ht.H] at h1
    rw [h1]
    have h2 : dirtyAt t k = true ↔ _ := h.marked k hk
    rw [h2]
    constructor
    · rintro ((hd | ⟨x, y, hx, hy, hl, e⟩) | ⟨x, y, hx, hy, hl, e⟩)
      · exact .inl hd
      · exact .inr ⟨x, y, hx, hy, by omega, e⟩
      · exact .inr ⟨x, y, hx, hy, by have := (hiff x y hx).1 hl; omega, e⟩
    · rintro (hd | ⟨x, y, hx, hy, hl, e⟩)
      · exact .inl (.inl hd)
      · rcases Nat.lt_or_ge (y * s.W + x) n with h3 | h3
        · exact .inl (.inr ⟨x, y, hx, hy, h3, e⟩)
        · exact .inr ⟨x, y, hx, hy, (hiff x y hx).2 (by omega), e⟩

/-- The sample loop over samples that are all admitted, then whatever samples are left (R83). -/
theorem bitmapLoop_admitted {s : State} {smp : Nat → Byte} (hp : s.Panel) (rest : List Nat) : ∀ (m n : Nat) (t : State),
    Repainted s t → Sampled s smp n t.fb t.dirty →
    (∀ j < n + m, Admits s (s.srcBase.toNat + j) (smp j)) →
    ∃ u, Repainted s u ∧ Sampled s smp (n + m) u.fb u.dirty ∧
      bitmapLoop (List.range' n m ++ rest) t = bitmapLoop rest u
  | 0, n, t, ht, h, _ => ⟨t, ht, h, by simp⟩
  | m + 1, n, t, ht, h, ha => by
    obtain ⟨u, hu, hs, e⟩ := bitmapLoop_admitted hp rest m (n + 1) _
      (ht.trans (setPixel_repainted (sampleColour (smp n)) (n % s.W : Nat) (n / s.W : Nat) t)) (Sampled.succ hp ht h)
      (fun j hj => ha j (by omega))
    refine ⟨u, hu, by rw [show n + (m + 1) = n + 1 + m by omega]; exact hs, ?_⟩
    rw [← e, List.range'_succ, List.cons_append, bitmapLoop, ht.sampleAddr, ht.memRead, Sys2Proof.Machine.sampleAddr,
      memRead_of_admits (ha n (by omega))]
    simp only [ht.W]

end Sys2Proof.Machine
end

