-- ==== Sys2Proof/Laws/Encoding.lean ====
section
/-! SUPPORT. The fields of a packed command word (R51) and the operand forms in both directions (R53). -/

namespace Sys2Proof.Machine

/-- A field of a command word as a number. -/
theorem toNat_field (w : CmdWord) (lo n : Nat) : (w.extractLsb' lo n).toNat = w.toNat / 2 ^ lo % 2 ^ n := by
  rw [BitVec.extractLsb'_toNat, Nat.shiftRight_eq_div_pow]

/-- A bit of a command word as a number. -/
theorem toNat_bit (w : CmdWord) (i : Nat) : (w.getLsbD i).toNat = w.toNat / 2 ^ i % 2 := by
  rw [BitVec.getLsbD, Nat.testBit_eq_decide_div_mod_eq]
  rcases Nat.mod_two_eq_zero_or_one (w.toNat / 2 ^ i) with h | h <;> simp [h]

theorem bool_eq_of_toNat {a b : Bool} (h : a.toNat = b.toNat) : a = b := by cases a <;> cases b <;> simp_all

section
variable (op : BitVec 8) (f c s : Bool) (fa fb fc fd : BitVec 16)

theorem toNat_packWord : (packWord op f c s fa fb fc fd).toNat =
    op.toNat * 2 ^ 88 + f.toNat * 2 ^ 66 + c.toNat * 2 ^ 65 + s.toNat * 2 ^ 64
    + fa.toNat * 2 ^ 48 + fb.toNat * 2 ^ 32 + fc.toNat * 2 ^ 16 + fd.toNat := by
  have := op.isLt; have := f.toNat_lt; have := c.toNat_lt; have := s.toNat_lt
  have := fa.isLt; have := fb.isLt; have := fc.isLt; have := fd.isLt
  rw [packWord, BitVec.toNat_ofNat, Nat.mod_eq_of_lt]
  omega

@[simp] theorem opField_packWord : opField (packWord op f c s fa fb fc fd) = op := by
  have := op.isLt; have := f.toNat_lt; have := c.toNat_lt; have := s.toNat_lt
  have := fa.isLt; have := fb.isLt; have := fc.isLt; have := fd.isLt
  apply BitVec.eq_of_toNat_eq
  rw [opField, toNat_field, toNat_packWord]
  omega

@[simp] theorem rsvField_packWord : rsvField (packWord op f c s fa fb fc fd) = 0 := by
  have := op.isLt; have := f.toNat_lt; have := c.toNat_lt; have := s.toNat_lt
  have := fa.isLt; have := fb.isLt; have := fc.isLt; have := fd.isLt
  apply BitVec.eq_of_toNat_eq
  rw [rsvField, toNat_field, toNat_packWord]
  simp only [BitVec.ofNat_eq_ofNat, BitVec.toNat_ofNat]
  omega

@[simp] theorem aField_packWord : aField (packWord op f c s fa fb fc fd) = fa := by
  have := op.isLt; have := f.toNat_lt; have := c.toNat_lt; have := s.toNat_lt
  have := fa.isLt; have := fb.isLt; have := fc.isLt; have := fd.isLt
  apply BitVec.eq_of_toNat_eq
  rw [aField, toNat_field, toNat_packWord]
  omega

@[simp] theorem bField_packWord : bField (packWord op f c s fa fb fc fd) = fb := by
  have := op.isLt; have := f.toNat_lt; have := c.toNat_lt; have := s.toNat_lt
  have := fa.isLt; have := fb.isLt; have := fc.isLt; have := fd.isLt
  apply BitVec.eq_of_toNat_eq
  rw [bField, toNat_field, toNat_packWord]
  omega

@[simp] theorem cField_packWord : cField (packWord op f c s fa fb fc fd) = fc := by
  have := op.isLt; have := f.toNat_lt; have := c.toNat_lt; have := s.toNat_lt
  have := fa.isLt; have := fb.isLt; have := fc.isLt; have := fd.isLt
  apply BitVec.eq_of_toNat_eq
  rw [cField, toNat_field, toNat_packWord]
  omega

@[simp] theorem dField_packWord : dField (packWord op f c s fa fb fc fd) = fd := by
  have := op.isLt; have := f.toNat_lt; have := c.toNat_lt; have := s.toNat_lt
  have := fa.isLt; have := fb.isLt; have := fc.isLt; have := fd.isLt
  apply BitVec.eq_of_toNat_eq
  rw [dField, toNat_field, toNat_packWord]
  omega

@[simp] theorem fBit_packWord : fBit (packWord op f c s fa fb fc fd) = f := by
  have := op.isLt; have := f.toNat_lt; have := c.toNat_lt; have := s.toNat_lt
  have := fa.isLt; have := fb.isLt; have := fc.isLt; have := fd.isLt
  apply bool_eq_of_toNat
  rw [fBit, toNat_bit, toNat_packWord]
  omega

@[simp] theorem cBit_packWord : cBit (packWord op f c s fa fb fc fd) = c := by
  have := op.isLt; have := f.toNat_lt; have := c.toNat_lt; have := s.toNat_lt
  have := fa.isLt; have := fb.isLt; have := fc.isLt; have := fd.isLt
  apply bool_eq_of_toNat
  rw [cBit, toNat_bit, toNat_packWord]
  omega

@[simp] theorem sBit_packWord : sBit (packWord op f c s fa fb fc fd) = s := by
  have := op.isLt; have := f.toNat_lt; have := c.toNat_lt; have := s.toNat_lt
  have := fa.isLt; have := fb.isLt; have := fc.isLt; have := fd.isLt
  apply bool_eq_of_toNat
  rw [sBit, toNat_bit, toNat_packWord]
  omega

end

/-- A signed operand that fits its field is read back (R53). -/
theorem s16_toS16 {v : Int} (h : fitsS16 v = true) : s16 (toS16 v) = v := by
  simp only [fitsS16, Bool.and_eq_true, decide_eq_true_eq] at h
  simp only [s16, toS16, BitVec.toInt_ofInt, Int.bmod_def]
  omega

theorem toS16_s16 (v : BitVec 16) : toS16 (s16 v) = v := BitVec.ofInt_toInt

theorem fitsS16_s16 (v : BitVec 16) : fitsS16 (s16 v) = true := by
  have h1 := BitVec.toInt_lt (x := v)
  have h2 := BitVec.le_toInt (x := v)
  rw [fitsS16, Bool.and_eq_true, decide_eq_true_eq, decide_eq_true_eq, s16]
  omega

theorem u16_toU16 {v : Nat} (h : fitsU16 v = true) : u16 (toU16 v) = v := by
  simp only [fitsU16, decide_eq_true_eq] at h
  simp only [u16, toU16, BitVec.toNat_ofNat]
  omega

theorem toU16_u16 (v : BitVec 16) : toU16 (u16 v) = v := by simp [toU16, u16]

theorem fitsU16_u16 (v : BitVec 16) : fitsU16 (u16 v) = true := by
  have := v.isLt
  rw [fitsU16, decide_eq_true_eq, u16]
  omega

/-- The two halves of a source base that fits 32 bits are read back (R53). -/
theorem base32_halves {v : Nat} (h : fitsU32 v = true) : base32 (baseHi v) (baseLo v) = v := by
  simp only [fitsU32, decide_eq_true_eq] at h
  simp only [base32, u16, baseHi, baseLo, BitVec.toNat_ofNat]
  omega

theorem baseHi_base32 (hi lo : BitVec 16) : baseHi (base32 hi lo) = hi := by
  have := lo.isLt
  apply BitVec.eq_of_toNat_eq
  have h2 := hi.isLt
  simp only [base32, u16, baseHi, BitVec.toNat_ofNat]
  omega

theorem baseLo_base32 (hi lo : BitVec 16) : baseLo (base32 hi lo) = lo := by
  have := lo.isLt
  apply BitVec.eq_of_toNat_eq
  simp only [base32, u16, baseLo, BitVec.toNat_ofNat]
  omega

theorem fitsU32_base32 (hi lo : BitVec 16) : fitsU32 (base32 hi lo) = true := by
  have := hi.isLt
  have := lo.isLt
  rw [fitsU32, decide_eq_true_eq, base32, u16, u16]
  omega

@[simp] theorem colourOf_colourBit (c : Colour) : colourOf (colourBit c) = c := by cases c <;> rfl
@[simp] theorem fillOf_fillBit (f : Fill) : fillOf (fillBit f) = f := by cases f <;> rfl
@[simp] theorem colourBit_colourOf (b : Bool) : colourBit (colourOf b) = b := by cases b <;> rfl
@[simp] theorem fillBit_fillOf (b : Bool) : fillBit (fillOf b) = b := by cases b <;> rfl

/-- A word is its fields (R51). -/
theorem packWord_fields {w : CmdWord} (h : rsvField w = 0) :
    packWord (opField w) (fBit w) (cBit w) (sBit w) (aField w) (bField w) (cField w) (dField w) = w := by
  have hr : (rsvField w).toNat = 0 := by rw [h]; rfl
  have hw := w.isLt
  rw [rsvField, toNat_field] at hr
  apply BitVec.eq_of_toNat_eq
  rw [toNat_packWord, opField, fBit, cBit, sBit, aField, bField, cField, dField]
  simp only [toNat_field, toNat_bit]
  omega

end Sys2Proof.Machine
end

