-- ==== Sys2Proof/Laws/Refresh.lean ====
section
/-! SUPPORT. What a probe and a refresh can do: the spec lemmas of R88 to R97. -/

namespace Sys2Proof.Machine

theorem ready_iff (b : Byte) : ready b = true ↔ b.getLsbD 7 = false := by simp [ready]

theorem statusAt_receive (s : State) (i : Nat) : statusAt (receive s) i = statusAt s (i + 1) := by
  simp [statusAt, Nat.add_comm, Nat.add_left_comm]

theorem probed_zero (s : State) : probed s 0 = s := by simp [probed]

theorem probed_receive (s : State) (n : Nat) : probed (receive s) n = probed s (n + 1) := by
  simp only [probed, statusAt_receive, receive_trace, receive_rxIn, receive_rxCount, receive_cfgAddr, List.drop_drop,
    List.range_succ_eq_map, List.map_cons, List.map_map, List.append_assoc, List.singleton_append]
  simp [receive, Nat.add_comm, Nat.add_left_comm, Function.comp_def]

/-- `Poll()` with `n` attempts: it goes on after the first ready answer, or faults after `n` busy ones (R88). -/
theorem pollLoop_cases : ∀ (n : Nat) (s : State),
    (∃ q < n, (statusAt s q).getLsbD 7 = false ∧ (∀ i < q, (statusAt s i).getLsbD 7 = true) ∧
      pollLoop n s = .go (probed s (q + 1))) ∨
    ((∀ i < n, (statusAt s i).getLsbD 7 = true) ∧
      pollLoop n s = .abandoned (enterFault .pollTimeout (pollTimeoutInfo s.params.pollMax) (probed s n)))
  | 0, s => .inr ⟨by simp, by rw [probed_zero]; rfl⟩
  | n + 1, s => by
    by_cases h : (statusAt s 0).getLsbD 7 = false
    · refine .inl ⟨0, by omega, h, by simp, ?_⟩
      rw [pollLoop, if_pos ((ready_iff _).2 h), ← probed_receive, probed_zero]
    · have h1 : (statusAt s 0).getLsbD 7 = true := by simpa using h
      have e : pollLoop (n + 1) s = pollLoop n (receive s) := by
        rw [pollLoop, if_neg (by rw [ready_iff]; exact h)]
      obtain ⟨q, hq, hr, hb, hp⟩ | ⟨hb, hp⟩ := pollLoop_cases n (receive s)
      · refine .inl ⟨q + 1, by omega, by rwa [statusAt_receive] at hr, ?_, by rw [e, hp, probed_receive]⟩
        intro i hi
        cases i with
        | zero => exact h1
        | succ i => rw [← statusAt_receive]; exact hb i (by omega)
      · refine .inr ⟨?_, by rw [e, hp, probed_receive]; rfl⟩
        intro i hi
        cases i with
        | zero => exact h1
        | succ i => rw [← statusAt_receive]; exact hb i (by omega)

/-- What `Poll()` does (R88). -/
theorem poll_cases (s : State) :
    (∃ q, ReadyAt s q ∧ poll s = .go (probed s (q + 1))) ∨
    (BusyThroughout s ∧
      poll s = .abandoned (enterFault .pollTimeout (pollTimeoutInfo s.params.pollMax) (probed s s.params.pollMax))) := by
  obtain ⟨q, hq, hr, hb, hp⟩ | h := pollLoop_cases s.params.pollMax s
  · exact .inl ⟨q, ⟨hq, hr, hb⟩, hp⟩
  · exact .inr h

/-- The device cannot be ready at two reads first, nor ready and busy throughout. -/
theorem ReadyAt.unique {s : State} {p q : Nat} (h : ReadyAt s p) (g : ReadyAt s q) : p = q := by
  rcases Nat.lt_trichotomy p q with hlt | heq | hlt
  · have := g.2.2 p hlt; rw [h.2.1] at this; exact absurd this (by simp)
  · exact heq
  · have := h.2.2 q hlt; rw [g.2.1] at this; exact absurd this (by simp)

theorem ReadyAt.not_busy {s : State} {q : Nat} (h : ReadyAt s q) : ¬BusyThroughout s := fun g => by
  have := g q h.1; rw [h.2.1] at this; exact absurd this (by simp)

theorem poll_of_readyAt {s : State} {q : Nat} (h : ReadyAt s q) : poll s = .go (probed s (q + 1)) := by
  obtain ⟨p, hp, e⟩ | ⟨hb, _⟩ := poll_cases s
  · rw [e, hp.unique h]
  · exact absurd hb h.not_busy

theorem poll_of_busy {s : State} (h : BusyThroughout s) :
    poll s = .abandoned (enterFault .pollTimeout (pollTimeoutInfo s.params.pollMax) (probed s s.params.pollMax)) := by
  obtain ⟨p, hp, _⟩ | ⟨_, e⟩ := poll_cases s
  · exact absurd h hp.not_busy
  · exact e

@[simp] theorem fbAt_probed (s : State) (n k : Nat) : fbAt (probed s n) k = fbAt s k := rfl
@[simp] theorem dirtyAt_probed (s : State) (n k : Nat) : dirtyAt (probed s n) k = dirtyAt s k := rfl
@[simp] theorem fullBursts_probed (s : State) (n : Nat) : fullBursts (probed s n) = fullBursts s := rfl
@[simp] theorem partialBursts_probed (s : State) (n : Nat) : partialBursts (probed s n) = partialBursts s := rfl

/-- How a refresh ends: the probe timed out and nothing was sent (R108 (d)), or after the probe the bursts were sent
and the dirty set is empty (R91, R95). -/
inductive RefreshEnds (s : State) (bursts : List (List Byte)) : Flow → Prop where
  | timedOut (busy : BusyThroughout s) : RefreshEnds s bursts
      (.abandoned (enterFault .pollTimeout (pollTimeoutInfo s.params.pollMax) (probed s s.params.pollMax)))
  | sent (q : Nat) (ready : ReadyAt s q) :
      RefreshEnds s bursts (.go (clearDirty (transmit bursts (probed s (q + 1)))))

theorem fullRefresh_ends (s : State) : RefreshEnds s (fullBursts s) (fullRefresh s) := by
  unfold fullRefresh
  obtain ⟨q, h, e⟩ | ⟨h, e⟩ := poll_cases s <;> rw [e]
  · exact .sent q h
  · exact .timedOut h

/-- The bursts that `FlushDirty()` sends (R95). -/
def flushBursts (s : State) : List (List Byte) := if prefersFull s then fullBursts s else partialBursts s

theorem flushDirty_ends (s : State) : RefreshEnds s (flushBursts s) (flushDirty s) := by
  unfold flushDirty flushBursts fullRefresh partialRefresh
  obtain ⟨q, h, e⟩ | ⟨h, e⟩ := poll_cases s <;> rw [e] <;> split
  · exact .sent q h
  · exact .sent q h
  · exact .timedOut h
  · exact .timedOut h

/-- What the sync tail does (R97). -/
theorem syncTail_true (s : State) : syncTail true s = flushDirty s := rfl
theorem syncTail_false (s : State) : syncTail false s = .go s := rfl

end Sys2Proof.Machine
end

