-- ==== Sys2Proof/Laws/Exec.lean ====
section
/-! SUPPORT. Everything a command can do, said once: its own writes, then a refused source read, nothing, or a refresh. -/

namespace Sys2Proof.Machine

/-- The first part of a command: what it does before its sync tail or refresh. -/
inductive OwnWrites (s : State) : Instr → State → Prop where
  | draws {i : Instr} {m : State} (hi : i.draws = true) (h : Repainted s m) : OwnWrites s i m
  | clears : OwnWrites s .clear (zeroFramebuffer s)
  | loads (w h base : Nat) : OwnWrites s (.setsrc w h base)
      { s with srcBase := BitVec.ofNat 32 base, srcW := BitVec.ofNat 16 w, srcH := BitVec.ofNat 16 h }
  | refreshes {i : Instr} (hi : i = .flush ∨ i = .flushdirty) : OwnWrites s i s

/-- How a command ends after its own writes `m`. -/
inductive Ends (m : State) : Instr → State → Prop where
  | refused {i : Instr} (addr : Nat) (hi : i.readsSource = true) :
      Ends m i (enterFault .srcAccess (srcAccessInfo addr) m)
  | done {i : Instr} (hi : i.refreshes = false) : Ends m i m
  | timedOut {i : Instr} (hi : i.refreshes = true) (busy : BusyThroughout m) :
      Ends m i (enterFault .pollTimeout (pollTimeoutInfo m.params.pollMax) (probed m m.params.pollMax))
  | sent {i : Instr} (hi : i.refreshes = true) (q : Nat) (ready : ReadyAt m q) (bursts : List (List Byte)) :
      Ends m i (clearDirty (transmit bursts (probed m (q + 1))))

theorem ends_of_refreshEnds {m : State} {bursts : List (List Byte)} {r : Flow} {i : Instr} (hi : i.refreshes = true)
    (h : RefreshEnds m bursts r) : Ends m i r.state := by
  cases h with
  | timedOut busy => exact .timedOut hi busy
  | sent q hq => exact .sent hi q hq bursts

theorem ends_syncTail (m : State) (i : Instr) (sync : Bool) (hi : i.refreshes = sync) :
    Ends m i (syncTail sync m).state := by
  cases sync
  · exact .done hi
  · exact ends_of_refreshEnds hi (flushDirty_ends m)

/-- Everything a command can do (one inversion for all ten): every command answers a next state, reached by its own
writes and then one of four ends. -/
theorem exec_inversion (i : Instr) (s : State) : ∃ m t, exec i s = .next t ∧ OwnWrites s i m ∧ Ends m i t := by
  cases i with
  | setpixel x y c sync =>
    exact ⟨_, _, rfl, .draws rfl (setPixel_repainted c x y s), ends_syncTail _ _ sync rfl⟩
  | clear => exact ⟨_, _, rfl, .clears, .done rfl⟩
  | drawline x0 y0 x1 y1 c sync =>
    exact ⟨_, _, rfl, .draws rfl (line_repainted c x0 y0 x1 y1 s), ends_syncTail _ _ sync rfl⟩
  | drawrect x y w h f c sync =>
    exact ⟨_, _, rfl, .draws rfl (rect_repainted f c x y w h s), ends_syncTail _ _ sync rfl⟩
  | drawcircle cx cy r f c sync =>
    exact ⟨_, _, rfl, .draws rfl (circle_repainted f c cx cy r s), ends_syncTail _ _ sync rfl⟩
  | drawbitmap sync =>
    obtain ⟨m, h, e⟩ | ⟨m, addr, h, e⟩ := bitmapLoop_cases (List.range (s.W * s.H)) s
    · exact ⟨m, _, by rw [exec, execDrawbitmap, finish, e]; rfl, .draws rfl h, ends_syncTail _ _ sync rfl⟩
    · exact ⟨m, _, by rw [exec, execDrawbitmap, finish, e]; rfl, .draws rfl h, .refused addr rfl⟩
  | drawimage dx dy sync =>
    obtain ⟨m, h, e⟩ | ⟨m, addr, h, e⟩ := imageLoop_cases dx dy (List.range s.L) s
    · exact ⟨m, _, by rw [exec, execDrawimage, finish, e]; rfl, .draws rfl h, ends_syncTail _ _ sync rfl⟩
    · exact ⟨m, _, by rw [exec, execDrawimage, finish, e]; rfl, .draws rfl h, .refused addr rfl⟩
  | setsrc w h base => exact ⟨_, _, rfl, .loads w h base, .done rfl⟩
  | flush => exact ⟨s, _, rfl, .refreshes (.inl rfl), ends_of_refreshEnds rfl (fullRefresh_ends s)⟩
  | flushdirty => exact ⟨s, _, rfl, .refreshes (.inr rfl), ends_of_refreshEnds rfl (flushDirty_ends s)⟩

/-- The inversion for a given next state. -/
theorem exec_cases {i : Instr} {s t : State} (h : exec i s = .next t) : ∃ m, OwnWrites s i m ∧ Ends m i t := by
  obtain ⟨m, t', e, hw, he⟩ := exec_inversion i s
  rw [e] at h
  cases h
  exact ⟨m, hw, he⟩

end Sys2Proof.Machine
end

