-- ==== Sys2Proof/Laws/Image.lean ====
section
/-! SUPPORT. The spec lemmas of DRAWIMAGE's bit loop and byte loop (R84 to R86, R108 (c)). -/

namespace Sys2Proof.Machine

theorem imageAddr_eq (s : State) (ix iy j : Nat) : imageAddr s ix iy j = pixelAddr s ix iy + j := rfl

theorem getLsbD_setBit (v : Byte) (i j : Nat) (b : Bool) (hi : i < 8) (hj : j < 8) :
    (setBit v j b).getLsbD i = if i = j then b else v.getLsbD i := by
  have hm : ∀ i j : Nat, i < 8 → j < 8 → (1#8 <<< j).getLsbD i = decide (i = j) := by
    intro i j hi hj
    interval_cases i <;> interval_cases j <;> rfl
  unfold setBit
  cases b <;> simp only [Bool.false_eq_true, if_true, if_false, BitVec.getLsbD_or, BitVec.getLsbD_and,
    BitVec.getLsbD_not, hm i j hi hj] <;> split <;> simp_all

/-- The four reads of an image pixel, all admitted (R86). -/
theorem imagePixel_admitted {s : State} {ix iy : Nat} {old : Bool} {p : Nat → Byte}
    (h : ∀ j < 4, Admits s (imageAddr s ix iy j) (p j)) :
    imagePixel s ix iy old = .ok (newBit old (p 0) (p 1) (p 2) (p 3)) := by
  have h0 := memRead_of_admits (h 0 (by omega))
  have h1 := memRead_of_admits (h 1 (by omega))
  have h2 := memRead_of_admits (h 2 (by omega))
  have h3 := memRead_of_admits (h 3 (by omega))
  rw [imageAddr_eq] at h0 h1 h2 h3
  rw [imagePixel]
  rw [show pixelAddr s ix iy = pixelAddr s ix iy + 0 by rfl, h0]
  simp only [Nat.add_zero, h1, h2, h3]

/-- The reads of an image pixel up to the first refused one (R86, R109). -/
theorem imagePixel_refused {s : State} {ix iy j : Nat} {old : Bool} {p : Nat → Byte} (hj : j < 4)
    (h : ∀ i < j, Admits s (imageAddr s ix iy i) (p i)) (hr : Refuses s (imageAddr s ix iy j)) :
    imagePixel s ix iy old = .error (imageAddr s ix iy j) := by
  have hr := memRead_of_refuses hr
  have ha : ∀ i < j, memRead s (pixelAddr s ix iy + i) = .ok (p i) := fun i hi => memRead_of_admits (h i hi)
  rw [imageAddr_eq] at hr ⊢
  rw [imagePixel, show pixelAddr s ix iy = pixelAddr s ix iy + 0 by rfl]
  interval_cases j
  · rw [hr]
  · rw [ha 0 (by omega)]; simp only [Nat.add_zero, hr]
  · rw [ha 0 (by omega)]; simp only [Nat.add_zero, hr, ha 1 (by omega)]
  · rw [ha 0 (by omega)]; simp only [Nat.add_zero, hr, ha 1 (by omega), ha 2 (by omega)]

/-- The value a panel pixel takes from the image: `NewBit` of the image pixel that lands there, else its own (R84). -/
theorem inImage_iff {s : State} {dx dy : Int} {k j : Nat} (hp : s.Panel) (hk : k < s.L) (hj : j < 8) :
    inImage s ((k % s.W : Nat) - dx) ((8 * (k / s.W) + j : Nat) - dy) = true ↔
      LandsAt s dx dy ((k % s.W : Nat) - dx).toNat ((8 * (k / s.W) + j : Nat) - dy).toNat (k % s.W) (8 * (k / s.W) + j) := by
  have hX : k % s.W < s.W ∧ 8 * (k / s.W) + j < s.H := by
    obtain ⟨h1, h2, h3⟩ | ⟨h1, h2, h3⟩ | ⟨h1, h2, h3⟩ := hp.sizes <;> rw [h3] at hk <;> rw [h1, h2] <;> omega
  obtain ⟨h1, h2⟩ := hX
  simp only [inImage, Bool.and_eq_true, decide_eq_true_eq, LandsAt]
  generalize k % s.W = a at *
  generalize 8 * (k / s.W) + j = b at *
  constructor
  · rintro ⟨⟨⟨g1, g2⟩, g3⟩, g4⟩
    exact ⟨by omega, by omega, h1, h2, by omega, by omega⟩
  · rintro ⟨g1, g2, -, -, g5, g6⟩
    exact ⟨⟨⟨by omega, by omega⟩, by omega⟩, by omega⟩

theorem LandsAt.unique {s : State} {dx dy : Int} {ix iy ix' iy' X Y : Nat} (h : LandsAt s dx dy ix iy X Y)
    (g : LandsAt s dx dy ix' iy' X Y) : ix = ix' ∧ iy = iy' := by
  obtain ⟨_, _, _, _, h1, h2⟩ := h
  obtain ⟨_, _, _, _, g1, g2⟩ := g
  omega

/-- What bit `j` of the byte being composed becomes (R84, R86). -/
def BitComposed (s : State) (dx dy : Int) (img : Nat → Nat → Nat → Byte) (k j : Nat) (old new : Bool) : Prop :=
  (∀ ix iy, LandsAt s dx dy ix iy (k % s.W) (8 * (k / s.W) + j) →
    new = newBit old (img ix iy 0) (img ix iy 1) (img ix iy 2) (img ix iy 3)) ∧
  ((∀ ix iy, ¬LandsAt s dx dy ix iy (k % s.W) (8 * (k / s.W) + j)) → new = old)

/-- The bit loop over bits that are all admitted, then whatever bits are left (R86). -/
theorem imageBits_admitted {s : State} {dx dy : Int} {img : Nat → Nat → Nat → Byte} {k : Nat} (hp : s.Panel)
    (hk : k < s.L) (rest : List Nat) : ∀ (m n : Nat) (new : Byte), n + m ≤ 8 →
    (∀ j, n ≤ j → j < n + m → ∀ ix iy, LandsAt s dx dy ix iy (k % s.W) (8 * (k / s.W) + j) →
      ∀ i < 4, Admits s (imageAddr s ix iy i) (img ix iy i)) →
    ∃ v : Byte, imageBits s dx dy k (List.range' n m ++ rest) new = imageBits s dx dy k rest v ∧
      (∀ j < 8, (j < n ∨ n + m ≤ j) → v.getLsbD j = new.getLsbD j) ∧
      (∀ j, n ≤ j → j < n + m → BitComposed s dx dy img k j (new.getLsbD j) (v.getLsbD j))
  | 0, n, new, _, _ => ⟨new, by simp, by simp, fun j h1 h2 => by omega⟩
  | m + 1, n, new, hn, ha => by
    have hi := inImage_iff (s := s) (dx := dx) (dy := dy) hp hk (show n < 8 by omega)
    obtain ⟨w, hw, hwo, hwb⟩ : ∃ w : Byte, imageBits s dx dy k (List.range' n (m + 1) ++ rest) new =
        imageBits s dx dy k (List.range' (n + 1) m ++ rest) w ∧
        (∀ j < 8, j ≠ n → w.getLsbD j = new.getLsbD j) ∧
        BitComposed s dx dy img k n (new.getLsbD n) (w.getLsbD n) := by
      rw [List.range'_succ, List.cons_append, imageBits]
      cases hin : inImage s ((k % s.W : Nat) - dx) ((8 * (k / s.W) + n : Nat) - dy) with
      | true =>
        have hl := hi.1 hin
        have hpx := imagePixel_admitted (old := new.getLsbD n) (ha n (by omega) (by omega) _ _ hl)
        let px := img ((k % s.W : Nat) - dx).toNat ((8 * (k / s.W) + n : Nat) - dy).toNat
        refine ⟨setBit new n (newBit (new.getLsbD n) (px 0) (px 1) (px 2) (px 3)), ?_, ?_, ?_⟩
        · simp only [if_true, hpx]; rfl
        · intro j hj hne
          rw [getLsbD_setBit _ _ _ _ hj (by omega), if_neg hne]
        · rw [getLsbD_setBit _ _ _ _ (by omega) (by omega), if_pos rfl]
          refine ⟨fun ix iy h => ?_, fun h => absurd hl (h _ _)⟩
          obtain ⟨rfl, rfl⟩ := h.unique hl
          rfl
      | false =>
        refine ⟨new, rfl, fun _ _ _ => rfl, fun ix iy h => ?_, fun _ => rfl⟩
        have : LandsAt s dx dy ((k % s.W : Nat) - dx).toNat ((8 * (k / s.W) + n : Nat) - dy).toNat (k % s.W)
            (8 * (k / s.W) + n) := by
          obtain ⟨h1, h2, h3, h4, h5, h6⟩ := h
          exact ⟨by omega, by omega, h3, h4, by omega, by omega⟩
        rw [hi.2 this] at hin
        cases hin
    obtain ⟨v, hv, hvo, hvb⟩ := imageBits_admitted hp hk rest m (n + 1) w (by omega)
      (fun j h1 h2 => ha j (by omega) (by omega))
    refine ⟨v, by rw [hw, hv], ?_, ?_⟩
    · intro j hj h
      rw [hvo j hj (by omega), hwo j hj (by omega)]
    · intro j h1 h2
      by_cases e : j = n
      · subst e
        rw [hvo j (by omega) (by omega)]
        exact hwb
      · have := hvb j (by omega) (by omega)
        rw [hwo j (by omega) e] at this
        exact this

/-- The bit loop of a byte whose reads are all admitted (R86). -/
theorem imageBits_byte {s : State} {dx dy : Int} {img : Nat → Nat → Nat → Byte} {k : Nat} (hp : s.Panel) (hk : k < s.L)
    (ha : ∀ j < 8, ∀ ix iy, LandsAt s dx dy ix iy (k % s.W) (8 * (k / s.W) + j) →
      ∀ i < 4, Admits s (imageAddr s ix iy i) (img ix iy i)) (old : Byte) :
    ∃ v : Byte, imageBits s dx dy k (List.range 8) old = .ok v ∧
      ∀ j < 8, BitComposed s dx dy img k j (old.getLsbD j) (v.getLsbD j) := by
  obtain ⟨v, e, _, h⟩ := imageBits_admitted (img := img) hp hk [] 8 0 old (by omega) (fun j _ hj => ha j (by omega))
  refine ⟨v, ?_, fun j hj => h j (by omega) (by omega)⟩
  rw [List.append_nil] at e
  rw [List.range_eq_range', e, imageBits]

/-- The bit loop of a byte up to the first refused read (R86, R109). -/
theorem imageBits_refused {s : State} {dx dy : Int} {img : Nat → Nat → Nat → Byte} {k j i ix iy : Nat} (hp : s.Panel)
    (hk : k < s.L) (hj : j < 8) (hi : i < 4) (hl : LandsAt s dx dy ix iy (k % s.W) (8 * (k / s.W) + j))
    (ha : ∀ j' i' ix' iy', j' < 8 → i' < 4 → (j' < j ∨ (j' = j ∧ i' < i)) →
      LandsAt s dx dy ix' iy' (k % s.W) (8 * (k / s.W) + j') → Admits s (imageAddr s ix' iy' i') (img ix' iy' i'))
    (hr : Refuses s (imageAddr s ix iy i)) (old : Byte) :
    imageBits s dx dy k (List.range 8) old = .error (imageAddr s ix iy i) := by
  have hsplit : List.range 8 = List.range' 0 j ++ (j :: List.range' (j + 1) (7 - j)) := by
    interval_cases j <;> rfl
  obtain ⟨v, e, _, _⟩ := imageBits_admitted (img := img) hp hk (j :: List.range' (j + 1) (7 - j)) j 0 old (by omega)
    (fun j' _ h ix' iy' hl' i' hi' => ha j' i' ix' iy' (by omega) hi' (.inl (by omega)) hl')
  rw [hsplit, e, imageBits]
  have hin := inImage_iff (s := s) (dx := dx) (dy := dy) hp hk hj
  have hl2 : LandsAt s dx dy ((k % s.W : Nat) - dx).toNat ((8 * (k / s.W) + j : Nat) - dy).toNat (k % s.W)
      (8 * (k / s.W) + j) := by
    obtain ⟨h1, h2, h3, h4, h5, h6⟩ := hl
    exact ⟨by omega, by omega, h3, h4, by omega, by omega⟩
  obtain ⟨e1, e2⟩ := hl2.unique hl
  have hpx := imagePixel_refused (old := v.getLsbD j) (p := img ix iy) hi
    (fun i' h => ha j i' ix iy hj (by omega) (.inr ⟨rfl, h⟩) hl) hr
  rw [← e1, ← e2] at hpx
  rw [e1, e2] at hpx
  simp only [hin.2 hl2, if_true, e1, e2, hpx]

/-! ### The byte loop -/

/-- A panel pixel is bit `Y mod 8` of byte `X + W*(Y div 8)`, and conversely (R19). -/
theorem pixel_of_byte {s : State} (hp : s.Panel) {X Y : Nat} (hX : X < s.W) (_hY : Y < s.H) :
    (X + s.W * (Y / 8)) % s.W = X ∧ 8 * ((X + s.W * (Y / 8)) / s.W) + Y % 8 = Y := by
  rw [Nat.add_mul_mod_self_left, Nat.mod_eq_of_lt hX, Nat.add_mul_div_left _ _ (by omega), Nat.div_eq_of_lt hX]
  have := hp
  exact ⟨rfl, by omega⟩

/-- Nothing committed: the picture as it is. -/
theorem Composited.zero {s : State} (hp : s.Panel) (dx dy : Int) (img : Nat → Nat → Nat → Byte) :
    Composited s dx dy img 0 s.fb s.dirty where
  fb_length := hp.fb_length
  dirty_length := hp.dirty_length
  painted _ _ _ _ _ h := absurd h (by omega)
  transparent _ _ _ _ _ _ := rfl
  outside _ _ _ _ _ := rfl
  uncommitted _ _ _ _ _ := rfl
  marked k _ := ⟨.inl, fun h => h.elim id fun h => absurd rfl h⟩

theorem LandsAt.of_repainted {s t : State} (h : Repainted s t) (dx dy : Int) (ix iy X Y : Nat) :
    LandsAt t dx dy ix iy X Y ↔ LandsAt s dx dy ix iy X Y := by
  simp only [LandsAt, h.srcW, h.srcH, h.W, h.H]

theorem imageAddr_of_repainted {s t : State} (h : Repainted s t) (ix iy j : Nat) :
    imageAddr t ix iy j = imageAddr s ix iy j := by
  simp only [imageAddr, h.srcBase, h.srcW]

theorem Admits.of_repainted {s t : State} (h : Repainted s t) (a : Nat) (b : Byte) : Admits t a b ↔ Admits s a b := by
  simp only [Admits, h.src]

theorem Refuses.of_repainted {s t : State} (h : Repainted s t) (a : Nat) : Refuses t a ↔ Refuses s a := by
  simp only [Refuses, h.src]

/-- A commit leaves the byte `new`, every other byte, and marks the byte exactly when its value changed (R85). -/
theorem commitByte_spec {s : State} (hp : s.Panel) (k : Nat) (hk : k < s.L) (v : Byte) :
    (∀ j, fbAt (commitByte k v s) j = if j = k then v else fbAt s j) ∧
    (∀ j, dirtyAt (commitByte k v s) j = true ↔ dirtyAt s j = true ∨ (j = k ∧ v ≠ fbAt s k)) := by
  unfold commitByte
  split
  · next h =>
    refine ⟨fun j => ?_, fun j => by simp [h]⟩
    split
    · next e => rw [h, e]
    · rfl
  · next h =>
    refine ⟨fun j => ?_, fun j => ?_⟩
    · rw [fbAt_writeByte, hp.fb_length]; simp [hk]
    · rw [dirtyAt_writeByte, hp.dirty_length]
      by_cases e : j = k <;> simp [e, hk, h]

/-- Byte `n` committed after bytes `0 .. n-1`. -/
theorem Composited.succ {s t : State} {dx dy : Int} {img : Nat → Nat → Nat → Byte} {n : Nat} {v : Byte} (hp : s.Panel)
    (ht : Repainted s t) (hn : n < s.L) (h : Composited s dx dy img n t.fb t.dirty)
    (hv : ∀ j < 8, BitComposed s dx dy img n j ((fbAt t n).getLsbD j) (v.getLsbD j)) :
    Composited s dx dy img (n + 1) (commitByte n v t).fb (commitByte n v t).dirty := by
  obtain ⟨hf, hd⟩ := commitByte_spec (ht.panel hp) n (ht.L.symm ▸ hn) v
  have hpix : ∀ X Y, pixelAt s.W (commitByte n v t).fb X Y =
      if X + s.W * (Y / 8) = n then v.getLsbD (Y % 8) else pixelAt s.W t.fb X Y := by
    intro X Y
    show (fbAt (commitByte n v t) (X + s.W * (Y / 8))).getLsbD (Y % 8) = _
    rw [hf]
    split <;> rfl
  have hold : ∀ X Y, X < s.W → Y < s.H → X + s.W * (Y / 8) = n →
      (fbAt t n).getLsbD (Y % 8) = pixelAt s.W s.fb X Y := by
    intro X Y hX hY e
    rw [← h.uncommitted X Y hX hY (by omega), ← e]; rfl
  have hfb : fbAt t n = fbAt s n := by
    apply BitVec.eq_of_getLsbD_eq
    intro j hj
    have hX : n % s.W < s.W ∧ 8 * (n / s.W) + j < s.H ∧ n % s.W + s.W * ((8 * (n / s.W) + j) / 8) = n := by
      have h1 : (8 * (n / s.W) + j) / 8 = n / s.W := by omega
      rw [h1]
      obtain ⟨h1, h2, h3⟩ | ⟨h1, h2, h3⟩ | ⟨h1, h2, h3⟩ := hp.sizes <;> rw [h3] at hn <;> rw [h1, h2] <;> omega
    have := hold _ _ hX.1 hX.2.1 hX.2.2
    rw [show (8 * (n / s.W) + j) % 8 = j by omega] at this
    rw [this, pixelAt, hX.2.2, show (8 * (n / s.W) + j) % 8 = j by omega]; rfl
  have hbit : ∀ X Y, X < s.W → Y < s.H → X + s.W * (Y / 8) = n →
      (∀ ix iy, LandsAt s dx dy ix iy X Y →
        v.getLsbD (Y % 8) = newBit (pixelAt s.W s.fb X Y) (img ix iy 0) (img ix iy 1) (img ix iy 2) (img ix iy 3)) ∧
      ((∀ ix iy, ¬LandsAt s dx dy ix iy X Y) → v.getLsbD (Y % 8) = pixelAt s.W s.fb X Y) := by
    intro X Y hX hY e
    have h1 := hv (Y % 8) (Nat.mod_lt _ (by omega))
    obtain ⟨h2, h3⟩ := pixel_of_byte hp hX hY
    rw [e] at h2 h3
    rw [BitComposed, h2, h3, hold X Y hX hY e] at h1
    exact h1
  refine ⟨?_, ?_, ?_, ?_, ?_, ?_, ?_⟩
  · rw [(commitByte_repainted n v t).fb_length]; exact h.fb_length
  · rw [(commitByte_repainted n v t).dirty_length]; exact h.dirty_length
  · intro ix iy X Y hl hlt hne
    rw [hpix]
    split
    · next e => rw [(hbit X Y hl.2.2.1 hl.2.2.2.1 e).1 ix iy hl, newBit, if_neg hne]
    · next e => exact h.painted ix iy X Y hl (by omega) hne
  · intro ix iy X Y hl he
    rw [hpix]
    split
    · next e => rw [(hbit X Y hl.2.2.1 hl.2.2.2.1 e).1 ix iy hl, newBit, if_pos he]
    · next e => exact h.transparent ix iy X Y hl he
  · intro X Y hX hY hno
    rw [hpix]
    split
    · next e => exact (hbit X Y hX hY e).2 hno
    · next e => exact h.outside X Y hX hY hno
  · intro X Y hX hY hle
    rw [hpix, if_neg (by omega)]
    exact h.uncommitted X Y hX hY (by omega)
  · intro k hk
    have h1 := hd k
    have h2 : dirtyAt t k = true ↔ _ := h.marked k hk
    show dirtyAt (commitByte n v t) k = true ↔ dirtyAt s k = true ∨ fbAt (commitByte n v t) k ≠ fbAt s k
    rw [h1, h2, hf k]
    by_cases e : k = n
    · subst e
      have h3 : t.fb.getD k 0 = fbAt s k := hfb
      simp only [if_pos, true_and, h3, hfb, ne_eq, not_true_eq_false, or_false]
    · simp only [e, false_and, or_false, if_false]; rfl

/-- The byte loop over bytes whose reads are all admitted, then whatever bytes are left (R86). -/
theorem imageLoop_admitted {s : State} {dx dy : Int} {img : Nat → Nat → Nat → Byte} (hp : s.Panel) (rest : List Nat) :
    ∀ (m n : Nat) (t : State), n + m ≤ s.L → Repainted s t → Composited s dx dy img n t.fb t.dirty →
    (∀ ix iy X Y, LandsAt s dx dy ix iy X Y → X + s.W * (Y / 8) < n + m →
      ∀ i < 4, Admits s (imageAddr s ix iy i) (img ix iy i)) →
    ∃ u, Repainted s u ∧ Composited s dx dy img (n + m) u.fb u.dirty ∧
      imageLoop dx dy (List.range' n m ++ rest) t = imageLoop dx dy rest u
  | 0, n, t, _, ht, h, _ => ⟨t, ht, h, by simp⟩
  | m + 1, n, t, hn, ht, h, ha => by
    have hnL : n < s.L := by omega
    obtain ⟨v, hv, hb⟩ := imageBits_byte (s := t) (dx := dx) (dy := dy) (img := img) (ht.panel hp) (ht.L.symm ▸ hnL)
      (fun j hj ix iy hl i hi => by
        rw [LandsAt.of_repainted ht, ht.W] at hl
        rw [Admits.of_repainted ht, imageAddr_of_repainted ht]
        refine ha ix iy _ _ hl ?_ i hi
        rw [show (8 * (n / s.W) + j) / 8 = n / s.W by omega, Nat.mod_add_div]
        omega) (fbAt t n)
    have hb' : ∀ j < 8, BitComposed s dx dy img n j ((fbAt t n).getLsbD j) (v.getLsbD j) := by
      intro j hj
      have := hb j hj
      simp only [BitComposed, LandsAt.of_repainted ht, ht.W] at this
      exact this
    obtain ⟨u, hu, hc, e⟩ := imageLoop_admitted hp rest m (n + 1) (commitByte n v t) (by omega)
      (ht.trans (commitByte_repainted n v t)) (Composited.succ hp ht hnL h hb')
      (fun ix iy X Y hl hlt => ha ix iy X Y hl (by omega))
    refine ⟨u, hu, by rw [show n + (m + 1) = n + 1 + m by omega]; exact hc, ?_⟩
    rw [← e, List.range'_succ, List.cons_append, imageLoop, hv]

end Sys2Proof.Machine
end

