-- ==== Sys2Proof/Laws/PerInstr.lean ====
section
/-! SUPPORT. Statements about every command as syntax, one lemma per constructor. -/

namespace Sys2Proof.Laws.EncodedFields

open Sys2Proof.Machine

/-- The word of a command carries the command's opcode, a zero `rsv` and zeros where its format wants zeros (R55, R57). -/
def Statement (i : Instr) : Prop :=
  opcodeOf (opField (encode i)) = some i.opcode ∧ rsvField (encode i) = 0 ∧
    mustBeZeroHolds (formatOf i.opcode) (encode i) = true

theorem setpixel (x y : Int) (c : Colour) (s : Bool) : Statement (.setpixel x y c s) := by
  simp [Statement, encode, mustBeZeroHolds, formatOf, Instr.opcode, opcodeOf]
theorem clear : Statement .clear := by
  simp [Statement, encode, mustBeZeroHolds, formatOf, Instr.opcode, opcodeOf]
theorem drawline (x0 y0 x1 y1 : Int) (c : Colour) (s : Bool) : Statement (.drawline x0 y0 x1 y1 c s) := by
  simp [Statement, encode, mustBeZeroHolds, formatOf, Instr.opcode, opcodeOf]
theorem drawrect (x y w h : Int) (f : Fill) (c : Colour) (s : Bool) : Statement (.drawrect x y w h f c s) := by
  simp [Statement, encode, mustBeZeroHolds, formatOf, Instr.opcode, opcodeOf]
theorem drawcircle (cx cy r : Int) (f : Fill) (c : Colour) (s : Bool) : Statement (.drawcircle cx cy r f c s) := by
  simp [Statement, encode, mustBeZeroHolds, formatOf, Instr.opcode, opcodeOf]
theorem drawbitmap (s : Bool) : Statement (.drawbitmap s) := by
  simp [Statement, encode, mustBeZeroHolds, formatOf, Instr.opcode, opcodeOf]
theorem drawimage (dx dy : Int) (s : Bool) : Statement (.drawimage dx dy s) := by
  simp [Statement, encode, mustBeZeroHolds, formatOf, Instr.opcode, opcodeOf]
theorem setsrc (w h base : Nat) : Statement (.setsrc w h base) := by
  simp [Statement, encode, mustBeZeroHolds, formatOf, Instr.opcode, opcodeOf]
theorem flush : Statement .flush := by
  simp [Statement, encode, mustBeZeroHolds, formatOf, Instr.opcode, opcodeOf]
theorem flushdirty : Statement .flushdirty := by
  simp [Statement, encode, mustBeZeroHolds, formatOf, Instr.opcode, opcodeOf]

end Sys2Proof.Laws.EncodedFields
end

