-- ==== Sys2Proof/Tests/Slice0.lean ====
section
/-! SUPPORT. Tests: ill-formed terms, words written out from the spec, one step of each command with the results of `95_test_vectors.md`, and a witness for the hypotheses of each statement. -/

namespace Sys2Proof.Tests

open Sys2Proof Sys2Proof.Machine

/-! ### Well-formedness: one ill-formed term for each check (R53) -/

theorem test_wf_refuses_signed_high : fitsS16 32768 = false := by decide
theorem test_wf_refuses_signed_low : fitsS16 (-32769) = false := by decide
theorem test_wf_refuses_unsigned : fitsU16 65536 = false := by decide
theorem test_wf_refuses_base : fitsU32 4294967296 = false := by decide
theorem test_wf_refuses_setpixel : (Instr.setpixel 0 32768 .set true).wellFormed = false := by decide
theorem test_wf_refuses_drawline : (Instr.drawline 0 0 0 (-32769) .set true).wellFormed = false := by decide
theorem test_wf_refuses_drawrect : (Instr.drawrect 0 0 40000 1 .solid .set true).wellFormed = false := by decide
theorem test_wf_refuses_drawcircle : (Instr.drawcircle 0 0 32768 .solid .set true).wellFormed = false := by decide
theorem test_wf_refuses_drawimage : (Instr.drawimage (-32769) 0 true).wellFormed = false := by decide
theorem test_wf_refuses_setsrc_w : (Instr.setsrc 65536 0 0).wellFormed = false := by decide
theorem test_wf_refuses_setsrc_h : (Instr.setsrc 0 65536 0).wellFormed = false := by decide
theorem test_wf_refuses_setsrc_base : (Instr.setsrc 0 0 4294967296).wellFormed = false := by decide

/-! ### Decoding: words written out from R51, R52, R55 (op, rsv, F, C, S, a, b, c, d) -/

theorem test_decode_setpixel : decode (0x01#8 ++ 0#21 ++ 0#1 ++ 1#1 ++ 0#1 ++ 0x0003#16 ++ 0xFFFE#16 ++ 0#16 ++ 0#16) =
    .ok (.setpixel 3 (-2) .set false) := by decide
theorem test_decode_clear : decode (0x02#8 ++ 0#88) = .ok .clear := by decide
theorem test_decode_drawline :
    decode (0x03#8 ++ 0#21 ++ 0#1 ++ 0#1 ++ 1#1 ++ 0x8000#16 ++ 0x7FFF#16 ++ 0xFFFF#16 ++ 0x0001#16) =
      .ok (.drawline (-32768) 32767 (-1) 1 .clear true) := by decide
theorem test_decode_drawrect :
    decode (0x04#8 ++ 0#21 ++ 1#1 ++ 1#1 ++ 0#1 ++ 0x0002#16 ++ 0x0003#16 ++ 0x0005#16 ++ 0xFFFC#16) =
      .ok (.drawrect 2 3 5 (-4) .solid .set false) := by decide
theorem test_decode_drawcircle :
    decode (0x05#8 ++ 0#21 ++ 1#1 ++ 0#1 ++ 1#1 ++ 0x000A#16 ++ 0xFFF5#16 ++ 0x0005#16 ++ 0#16) =
      .ok (.drawcircle 10 (-11) 5 .solid .clear true) := by decide
theorem test_decode_drawbitmap : decode (0x06#8 ++ 0#21 ++ 0#1 ++ 0#1 ++ 1#1 ++ 0#64) = .ok (.drawbitmap true) := by decide
theorem test_decode_drawimage : decode (0x07#8 ++ 0#21 ++ 0#3 ++ 0xFFFE#16 ++ 0x0003#16 ++ 0#32) =
    .ok (.drawimage (-2) 3 false) := by decide
theorem test_decode_setsrc : decode (0x08#8 ++ 0#24 ++ 0xFFFF#16 ++ 0x0003#16 ++ 0x0001#16 ++ 0x2000#16) =
    .ok (.setsrc 65535 3 0x12000) := by decide
theorem test_decode_flush : decode (0x09#8 ++ 0#88) = .ok .flush := by decide
theorem test_decode_flushdirty : decode (0x0A#8 ++ 0#88) = .ok .flushdirty := by decide

/-- V30: every illegal word of the vector is refused. -/
theorem test_decode_refuses_illegal_words :
    ([0x000000000000000000000000, 0xFFFFFFFFFFFFFFFFFFFFFFFF, 0x0B0000000000000000000000, 0xFF0000000000000000000000,
      0x010000000001000100010000, 0x010000040001000100000000, 0x020000010000000000000000, 0x020000020000000000000000,
      0x030000040000000000010001, 0x050000000001000100010001, 0x060000020000000000000000, 0x060000000001000000000000,
      0x070000000000000000010000, 0x080000010001000100000000, 0x090000000000000000000001, 0x0A0000040000000000000000,
      0x090000080000000000000000, 0x048000000000000000010001] : List Nat).all
        (fun w => (decodeTableWord 96 w).isNone) = true := by decide

/-- R63: the encoder writes the spec's words. -/
theorem test_encode_spec_examples : specExamples.all (fun p => encode p.2.2 == p.2.1) = true := by decide

/-! ### The test states -/

/-- A 96 by 16 panel, all dark, `POLL_MAX = 3`; `src` is backed, `rx` are the device's next answers, the source
registers hold `base`, `sw`, `sh`. -/
def panel (src : Memory) (rx : List Byte) (base : BitVec 32) (sw sh : BitVec 16) : State :=
  { State.construct ⟨some 96, some 16, none⟩ 0 ⟨3, 0x21, 0x22⟩ src [] rx 0 with
    fb := List.replicate 192 0, srcBase := base, srcW := sw, srcH := sh }

/-- The panel with nothing backed. -/
def dark (rx : List Byte) : State := panel [] rx 0 0 0

/-- The vectors' 128 by 32 panel, all dark, `POLL_MAX = 3`. -/
def wide (src : Memory) (rx : List Byte) (base : BitVec 32) (sw sh : BitVec 16) : State :=
  { State.construct ⟨none, none, none⟩ 0 ⟨3, 0x21, 0x22⟩ src [] rx 0 with
    fb := List.replicate 512 0, srcBase := base, srcW := sw, srcH := sh }

/-- `n` backed addresses from `lo` on, each holding `b`. -/
def ramp (lo n : Nat) (b : Byte) : Memory := (List.range' lo n).map fun a => (a, b)

/-- The next state of an outcome. -/
def nextOf : Host.Outcome State Fault Refusal → Option State
  | .next t => some t
  | .fault _ => none
  | .refused _ => none

/-- The bytes that are not zero, with their index. -/
def lit (s : State) : List (Byte × Nat) := s.fb.zipIdx.filter fun p => p.1 != 0

/-- The indices of the dirty bytes. -/
def marks (s : State) : List Nat := (s.dirty.zipIdx.filter fun p => p.1).map fun p => p.2

/-- HALT, FCAUSE, FINFO. -/
def status (s : State) : Bool × BitVec 4 × BitVec 32 := (s.halt, s.fcause, s.finfo)

/-! ### One step of each command, results from `95_test_vectors.md` -/

/-- V11: (5, 8) is bit 0 of byte 133. -/
theorem test_setpixel_row_8 : (nextOf (exec (.setpixel 5 8 .set false) (wide [] [] 0 0 0))).map (fun t => (lit t, marks t)) =
    some ([(0x01, 133)], [133]) := by decide +kernel

/-- V13: CLEAR ANDs the complement in. -/
theorem test_setpixel_clears_one_bit :
    (nextOf (exec (.setpixel 3 12 .clear false) { wide [] [] 0 0 0 with fb := List.replicate 131 0 ++ [0xF2] ++ List.replicate 380 0 })).map
      lit = some [(0xE2, 131)] := by decide +kernel

/-- V14: CLEAR keeps DIRTY. -/
theorem test_clear_keeps_dirty :
    (nextOf (exec .clear { wide [] [] 0 0 0 with
        fb := List.replicate 512 0xAA, dirty := List.replicate 7 false ++ [true] ++ List.replicate 504 false })).map
      (fun t => (lit t, marks t, t.trace)) = some ([], [7], []) := by decide +kernel

/-- V15: (1, 2) to (0, 0), the direction that differs from its reverse. -/
theorem test_drawline_reversed :
    (nextOf (exec (.drawline 1 2 0 0 .set false) (wide [] [] 0 0 0))).map lit = some [(0x01, 0), (0x06, 1)] := by
  decide +kernel

/-- V15: (0, 0) to (2, 5), where `tdiv2` rounds toward zero. -/
theorem test_drawline_rounds_toward_zero :
    linePoints 0 0 2 5 = [(0, 0), (0, 1), (1, 2), (1, 3), (2, 4), (2, 5)] := by decide +kernel

/-- V16: a clipped solid rectangle. -/
theorem test_drawrect_solid_clipped :
    (nextOf (exec (.drawrect 126 30 5 5 .solid .set false) (wide [] [] 0 0 0))).map (fun t => (lit t, marks t)) =
      some ([(0xC0, 510), (0xC0, 511)], [510, 511]) := by decide +kernel

/-- V16: an outline. -/
theorem test_drawrect_outline :
    (nextOf (exec (.drawrect 2 2 5 4 .outline .set false) (wide [] [] 0 0 0))).map lit =
      some [(0x3C, 2), (0x24, 3), (0x24, 4), (0x24, 5), (0x3C, 6)] := by decide +kernel

/-- V18: radius 3, outline. -/
theorem test_drawcircle_outline :
    (nextOf (exec (.drawcircle 10 10 3 .outline .set false) (wide [] [] 0 0 0))).map lit =
      some [(0x80, 9), (0x80, 10), (0x80, 11), (0x0E, 135), (0x11, 136), (0x20, 137), (0x20, 138), (0x20, 139),
        (0x11, 140), (0x0E, 141)] := by decide +kernel

/-- V18: radius 2, solid. -/
theorem test_drawcircle_solid :
    (nextOf (exec (.drawcircle 10 10 2 .solid .set false) (wide [] [] 0 0 0))).map lit =
      some [(0x0E, 136), (0x1F, 137), (0x1F, 138), (0x1F, 139), (0x0E, 140)] := by decide +kernel

/-- V21 in small: three samples backed, the fourth is refused; no sync tail. -/
theorem test_drawbitmap_refused :
    (nextOf (exec (.drawbitmap true) (wide (ramp 0x2000 3 1) [0] 0x2000 0 0))).map
      (fun t => ((lit t, marks t), t.fcause, t.finfo, t.trace.length)) =
        some (([(0x01, 0), (0x01, 1), (0x01, 2)], [0, 1, 2]), 4, 0x00002003, 0) := by decide +kernel

/-- V22 on the 96 by 16 panel, where (3, 9) is in byte 3 + 96: opaque red sets, opaque black clears. -/
theorem test_drawimage_opaque :
    (nextOf (exec (.drawimage 3 9 false) { panel [(0x12000, 0xFF), (0x12001, 0), (0x12002, 0), (0x12003, 0xFF),
        (0x12004, 0), (0x12005, 0), (0x12006, 0), (0x12007, 0xFF)] [] 0x12000 2 1 with
          fb := List.replicate 100 0 ++ [0x02] ++ List.replicate 91 0 })).map (fun t => (lit t, marks t)) =
      some ([(0x02, 99)], [99, 100]) := by decide +kernel

/-- V24 (c): the address after 0xFFFFFFFF is 2^32, refused; FINFO is taken modulo 2^32. -/
theorem test_drawimage_beyond_the_address_space :
    (nextOf (exec (.drawimage 0 0 false) (panel (ramp 0xFFFFFFFC 4 1) [] 0xFFFFFFFC 2 1))).map
      (fun t => (lit t, marks t, status t)) = some ([(0x01, 0)], [0], (true, 4, 0)) := by decide +kernel

/-- V19. -/
theorem test_setsrc : (nextOf (exec (.setsrc 4 3 0x12000) (dark []))).map (fun t => (t.srcBase, t.srcW, t.srcH)) =
    some (0x12000, 4, 3) := by decide +kernel

/-- V6 on the small panel: the seven bursts after CLEAR. -/
theorem test_flush_sends_the_buffer :
    (nextOf (exec .flush (dark [0]))).map (fun t => t.trace) =
      some [.rx 0x3C 0, .tx 0x3C [0x00, 0x21], .tx 0x3C [0x00, 0x00], .tx 0x3C [0x00, 0x5F], .tx 0x3C [0x00, 0x22],
        .tx 0x3C [0x00, 0x00], .tx 0x3C [0x00, 0x01], .tx 0x3C (0x40 :: List.replicate 192 0)] := by decide +kernel

/-- V28: three busy answers; a POLL_TIMEOUT keeps the picture and the dirty set, sends nothing. -/
theorem test_sync_times_out :
    (nextOf (exec (.setpixel 3 9 .set true) (wide [] [0x80, 0x80, 0x80] 0 0 0))).map
      (fun t => (lit t, marks t, t.finfo, t.trace)) =
        some ([(0x02, 131)], [131], 3, [.rx 0x3C 0x80, .rx 0x3C 0x80, .rx 0x3C 0x80]) := by decide +kernel

/-- V12 on the 96 by 16 panel, where (3, 9) is in byte 3 + 96: a marked byte is sent with its own window; 0x7F is
ready (V27). -/
theorem test_flushdirty_sends_marked_byte :
    (nextOf (exec .flushdirty { dark [0x80, 0x7F] with
        dirty := List.replicate 99 false ++ [true] ++ List.replicate 92 false })).map (fun t => (marks t, t.trace)) =
      some ([], [.rx 0x3C 0x80, .rx 0x3C 0x7F, .tx 0x3C [0x00, 0x21], .tx 0x3C [0x00, 0x03], .tx 0x3C [0x00, 0x03],
        .tx 0x3C [0x00, 0x22], .tx 0x3C [0x00, 0x01], .tx 0x3C [0x00, 0x01], .tx 0x3C [0x40, 0x00]]) := by decide +kernel

/-- V30: an illegal word halts the block, FINFO is its opcode. -/
theorem test_step_illegal_word :
    (nextOf (step (State.withFetchWord (dark []) 96 0x090000080000000000000000))).map (fun t => (status t, t.ci, t.trace)) =
      some ((true, 2, 9), 0, []) := by decide +kernel

/-- V35: a halted block accepts nothing. -/
theorem test_step_halted :
    step { dark [] with halt := true, fcause := 3, finfo := 3, host := [.command 0x090000000000000000000000 []] } =
      .fault (.halted 3 3) := rfl

/-- The step after `withFetchWord` runs the word, from reset (log 7). -/
theorem test_step_from_reset :
    (nextOf (step (State.reset.withFetchWord 96 0x080000000004000300012000))).map
      (fun t => (t.srcBase, t.srcW, t.srcH, t.ci)) = some (0x12000, 4, 3, 1) := by decide +kernel

/-- R41: of two stores during a DRAWIMAGE of one pixel the command sees the one to B and not the one to A, and both have
landed after it (V23's opaque test: A is the old 0xFF, B the new 1, so the pixel is SET). -/
theorem test_step_racing_stores :
    (nextOf (step { panel [(0x12000, 0), (0x12001, 0), (0x12002, 0), (0x12003, 0xFF)] [] 0x12000 1 1 with
        host := [.command 0x070000000000000000000000 [⟨0x12002, 1, true⟩, ⟨0x12003, 0, false⟩]] })).map
      (fun t => (lit t, t.src)) =
        some ([(0x01, 0)], [(0x12000, 0), (0x12001, 0), (0x12002, 1), (0x12003, 0)]) := by decide +kernel

/-- R119: FINFO of an unsupported geometry is `{16'b0, CFG_H, CFG_W}`. -/
theorem test_reset_unsupported :
    (nextOf (step { dark [] with host := [.reset ⟨some 64, some 48, none⟩] })).map status = some (true, 1, 0x00003040) := by
  decide +kernel

/-! ### Witnesses: a concrete state and operands that meet all the hypotheses of each statement -/

theorem panel_accepting (src : Memory) (rx : List Byte) (base : BitVec 32) (sw sh : BitVec 16) (h : src.wf = true) :
    (panel src rx base sw sh).Accepting where
  fb_length := by show (List.replicate 192 0).length = _; rw [List.length_replicate]; show 192 = fbLength 96 16; decide
  dirty_length := by show (List.replicate 192 false).length = _; rw [List.length_replicate]; show 192 = fbLength 96 16; decide
  halt_iff := by show false = true ↔ (0 : BitVec 4) ≠ 0; decide
  cause_known := by show (0 : BitVec 4).toNat ≤ 4; decide
  finfo_clear := fun _ => rfl
  config_fault := by show supportedGeometry 96 16 = false ↔ (0 : BitVec 4) = 1; decide
  config_info := fun h => absurd h (by show (0 : BitVec 4) ≠ 1; decide)
  poll_max := by show 1 ≤ 3; decide
  src_wf := h
  not_halted := rfl

/-- The dark panel with nothing backed accepts commands. -/
theorem dark_accepting (rx : List Byte) : (dark rx).Accepting := panel_accepting [] rx 0 0 0 rfl

/-- With the answer `0x00` next, the device is ready at the first read. -/
theorem dark_ready (rx : List Byte) : ReadyAt (dark (0 :: rx)) 0 :=
  ⟨by show 0 < 3; omega, by show (0 : Byte).getLsbD 7 = false; decide, fun _ h => by omega⟩

/-- Ready at the last of the three reads. -/
theorem dark_ready_last : ReadyAt (dark [0x80, 0xFF, 0x7F]) 2 := by
  refine ⟨by show 2 < 3; omega, rfl, fun i h => ?_⟩
  interval_cases i <;> rfl

theorem dark_busy : BusyThroughout (dark [0x80, 0xFF, 0x80]) := by
  intro i h
  have h : i < 3 := h
  interval_cases i <;> rfl

/-- The dark panel with `n` dirty bytes. -/
def marked (n : Nat) (rx : List Byte) : State :=
  { dark rx with dirty := List.replicate n true ++ List.replicate (192 - n) false }

theorem marked_accepting (n : Nat) (hn : n ≤ 192) (rx : List Byte) : (marked n rx).Accepting :=
  { dark_accepting rx with
    dirty_length := by
      show (List.replicate n true ++ List.replicate (192 - n) false).length = (dark rx).L
      rw [← (dark_accepting rx).dirty_length]
      show _ = (List.replicate 192 false).length
      rw [List.length_append, List.length_replicate, List.length_replicate, List.length_replicate]
      omega }

theorem read_ramp (b : Byte) : ∀ (n lo i : Nat), i < n → Memory.read (ramp lo n b) (lo + i) = some b
  | n + 1, lo, i, h => by
    rw [ramp, List.range'_succ, List.map_cons, Memory.read]
    split
    · rfl
    · next hne =>
      have hi : i ≠ 0 := fun e => hne (by simp [e])
      have := read_ramp b n (lo + 1) (i - 1) (by omega)
      rw [show lo + 1 + (i - 1) = lo + i by omega] at this
      exact this

theorem ramp_wf (b : Byte) : ∀ (n lo k : Nat), k ≤ lo → lo + n ≤ 2 ^ 32 → Memory.risesFrom k (ramp lo n b) = true
  | 0, _, _, _, _ => rfl
  | n + 1, lo, k, hk, h => by
    rw [ramp, List.range'_succ, List.map_cons, Memory.risesFrom]
    have := ramp_wf b n (lo + 1) (lo + 1) (by omega) (by omega)
    rw [ramp] at this
    simp only [this, Bool.and_true, Bool.and_eq_true, decide_eq_true_eq]
    omega

/-- A panel whose source memory holds `n` bytes `b` from `base` on. -/
theorem ramp_accepting (b : Byte) (n : Nat) (base : BitVec 32) (sw sh : BitVec 16) (h : base.toNat + n ≤ 2 ^ 32) :
    (panel (ramp base.toNat n b) [] base sw sh).Accepting :=
  panel_accepting _ _ _ _ _ (ramp_wf b n base.toNat 0 (by omega) h)

theorem witness_SpecExamplesAssembleAndDecode : ("flush", 0x090000000000000000000000, .flush) ∈ specExamples := by
  simp [specExamples]
theorem witness_EncodeThenDecode :
    (Instr.drawrect (-32768) 32767 0 (-1) .solid .set true).wellFormed = true ∧
    (Instr.setsrc 65535 0 4294967295).wellFormed = true := by decide
theorem witness_DecodeThenEncode : decode 0x010000030003000900000000 = .ok (.setpixel 3 9 .set true) := by decide
/-- Two stores to one byte, the first of them seen, and one to an address that is not backed. -/
def racedStores : List RacingStore := [⟨7, 1, true⟩, ⟨8, 2, true⟩] ++ ⟨7, 3, false⟩ :: []
/-- A host that presents the word `w` and stores so while it runs. -/
def raced (w : CmdWord) : State := { panel (ramp 7 1 0) [] 0 0 0 with host := [.command w racedStores] }
/-- Without and with stores by the host meanwhile. -/
theorem witness_IllegalWordRaisesIllegalCommand :
    ((raced 0).halt = false ∧ (raced 0).host = .command 0 racedStores :: [] ∧
      ∀ o, (0 : CmdWord) &&& tableMask o ≠ tableMatch o) ∧
    (0x01000003000300090000FFFF &&& tableMask .drawrect ≠ tableMatch .drawrect) ∧
    (0x04000007FFFFFFFFFFFFFFFF &&& tableMask .drawrect = tableMatch .drawrect) ∧
    let s := State.withFetchWord (dark []) 96 0x0B0000000000000000000000
    s.halt = false ∧ s.host = .command 0x0B0000000000000000000000 [] :: [] ∧
      ∀ o, (0x0B0000000000000000000000 : CmdWord) &&& tableMask o ≠ tableMatch o :=
  ⟨⟨rfl, rfl, fun o => by cases o <;> decide⟩, by decide, by decide, rfl, rfl, fun o => by cases o <;> decide⟩
/-- With stores by the host meanwhile, and without. -/
theorem witness_StepRunsDecodedCommand :
    ((raced 0x020000000000000000000000).halt = false ∧ (raced 0x020000000000000000000000).host =
      .command 0x020000000000000000000000 racedStores :: []) ∧
    let s := State.withFetchWord (dark []) 96 0x020000000000000000000000
    s.halt = false ∧ s.host = .command 0x020000000000000000000000 [] :: [] ∧ decode 0x020000000000000000000000 = .ok .clear :=
  ⟨⟨rfl, rfl⟩, rfl, rfl, rfl⟩
theorem witness_HaltedBlockAcceptsNothing :
    ({ dark [] with halt := true, fcause := 3, finfo := 3 }).halt = true ∧ (dark []).host = [] ∧
    (State.withFetchWord { dark [] with halt := true, fcause := 3, finfo := 3 } 96 0).host = .command 0 [] :: [] ∧
    ({ dark [] with host := [.store 7 1] }).host = .store 7 1 :: [] := ⟨rfl, rfl, rfl, rfl⟩
theorem witness_IdleBlockWaits : (dark []).halt = false ∧ (dark []).host = [] := ⟨rfl, rfl⟩
/-- Both clauses: a word that completes and a word that faults. -/
theorem witness_CommandIndexCountsCompletedCommands :
    (∃ t, step (State.withFetchWord (dark []) 96 0x020000000000000000000000) = .next t ∧ t.halt = false) ∧
    (∃ t, step (State.withFetchWord (dark []) 96 0) = .next t ∧ t.halt = true) := ⟨⟨_, rfl, rfl⟩, ⟨_, rfl, rfl⟩⟩
/-- Both clauses: a supported and an unsupported geometry. -/
theorem witness_HostResetLatchesAndChecksGeometry :
    ({ dark [] with host := [.reset ⟨some 128, some 64, some 0x3D⟩] }).host = .reset ⟨some 128, some 64, some 0x3D⟩ :: [] ∧
    ({ dark [] with host := [.reset ⟨some 64, none, none⟩] }).host = .reset ⟨some 64, none, none⟩ :: [] := ⟨rfl, rfl⟩
theorem witness_HostResetKeepsTheEnvironment :
    ({ dark [] with host := [.reset ⟨none, none, none⟩] }).host = .reset ⟨none, none, none⟩ :: [] := rfl
theorem witness_StepKeepsSound :
    (dark []).Sound ∧ ∃ t, step (dark []) = .next t := ⟨(dark_accepting []).toSound, _, rfl⟩
theorem witness_OnlyResetWritesConfiguration :
    (∃ t, step (State.withFetchWord (dark []) 96 0x080000000004000300012000) = .next t) ∧
    ∀ inputs rest, (State.withFetchWord (dark []) 96 0x080000000004000300012000).host ≠ .reset inputs :: rest :=
  ⟨⟨_, rfl⟩, fun _ _ h => by cases h⟩
/-- Both clauses: an address that is backed and one that is not. -/
theorem witness_HostStoreThenReadReturnsTheByte :
    ({ panel (ramp 7 1 0) [] 0 0 0 with host := [.store 7 1] }).host = .store 7 1 :: [] ∧
    Memory.read (ramp 7 1 0) 7 ≠ none ∧ Memory.read (ramp 7 1 0) 8 = none := ⟨rfl, by decide, rfl⟩
/-- A block that CONFIG_ERROR has halted: 64 by 48. -/
def misconfigured : State := State.construct ⟨some 64, some 48, none⟩ 0 ⟨3, 0x21, 0x22⟩ [] [] [] 0
theorem misconfigured_sound : misconfigured.Sound where
  fb_length := by simp [misconfigured, State.construct, resetFramebuffer, State.L]
  dirty_length := by simp [misconfigured, State.construct, resetDirty, State.L]
  halt_iff := by decide
  cause_known := by decide
  finfo_clear := by decide
  config_fault := by decide
  config_info := by decide
  poll_max := by decide
  src_wf := rfl
/-- R119, R23: the host learns of a CONFIG_ERROR from STATUS and FINFO. -/
theorem test_readPort_configError : readPort misconfigured 0 = 0x003C3040 ∧ readPort misconfigured 1 = 0x00000011 ∧
    readPort misconfigured 2 = 0x00003040 := by decide
/-- A halted block with an unsupported geometry; then each clause of a supported one at the ends of its range. -/
theorem witness_ReadPortMap :
    (misconfigured.Sound ∧ supportedGeometry misconfigured.cfgW misconfigured.cfgH = false ∧ misconfigured.halt = true) ∧
    (dark []).Sound ∧ supportedGeometry (dark []).cfgW (dark []).cfgH = true ∧ (0 < (dark []).L ∧ 191 < (dark []).L) ∧
    ∀ a ∈ [6, 0xFFF, 0x1000 + 192, 0x1FFF, 0x2000 + 192], 5 < a ∧ ¬(0x1000 ≤ a ∧ a < 0x1000 + (dark []).L) ∧
      ¬(0x2000 ≤ a ∧ a < 0x2000 + (dark []).L) := by
  refine ⟨⟨misconfigured_sound, rfl, rfl⟩, (dark_accepting []).toSound, rfl, ?_, ?_⟩ <;> (show _ ; rw [show (dark []).L = 192 by decide]; decide)
theorem witness_SetpixelDrawsThePixel : (dark []).Accepting := dark_accepting []
theorem witness_SetpixelOffPanelChangesNothing :
    (-1 : Int) < 0 ∧ ((dark []).W : Int) ≤ 96 ∧ (-32768 : Int) < 0 ∧ ((dark []).H : Int) ≤ 16 := by decide
theorem witness_SetPixelIdempotentAndCommuting : ((0, 0) : Int × Int) ≠ (0, 8) := by decide
theorem witness_SetsrcLoadsTheSourceRegisters : (Instr.setsrc 65535 65535 4294967295).wellFormed = true := by decide
theorem witness_LinePlotsItsEndpointsStepByStep :
    (linePoints 0 0 2 1)[1]? = some (1, 0) ∧ (linePoints 0 0 2 1)[1 + 1]? = some (2, 1) := by decide
theorem witness_DrawlineDrawsTheLine : (dark []).Accepting := dark_accepting []
theorem witness_DrawrectSolidFillsTheRegion : (dark []).Accepting ∧ (1 : Int) ≤ 1 ∧ (1 : Int) ≤ 32767 :=
  ⟨dark_accepting [], by decide, by decide⟩
theorem witness_DrawrectOutlineDrawsThePerimeter : (dark []).Accepting ∧ (1 : Int) ≤ 32767 ∧ (1 : Int) ≤ 1 :=
  ⟨dark_accepting [], by decide, by decide⟩
theorem witness_DegenerateDrawrectPlotsNothing : (0 : Int) ≤ 0 ∧ (-32768 : Int) ≤ 0 := by decide
theorem witness_CircleWalkIsTheNearestOctant : (1 : Int) ≤ 1 ∧ (-1 : Int) < 0 ∧ (1, 0) ∈ circleWalk 1 ∧ (1, 1) ∉ circleWalk 1 := by
  decide
theorem witness_DrawcircleOutlineDrawsTheEightImages : (dark []).Accepting := dark_accepting []
theorem witness_DrawcircleSolidFillsTheSpans : (dark []).Accepting := dark_accepting []
theorem witness_OutlineCircleIsRotationInvariant :
    ((10 + 5, 10 + 2) : Int × Int) ∈ (circleWalk 5).flatMap (circlePoints 10 10) := by decide
theorem witness_SmallestCircles : (dark []).Accepting ∧ (-1 : Int) < 0 := ⟨dark_accepting [], by decide⟩
theorem witness_SolidCircleContainsTheOutline :
    (dark []).Accepting ∧ 3 < (dark []).W ∧ 5 < (dark []).H ∧ pixelAt (dark []).W (dark []).fb 3 5 = false ∧
    ∃ t u, exec (.drawcircle 5 5 2 .outline .set false) (dark []) = .next t ∧
      exec (.drawcircle 5 5 2 .solid .set false) (dark []) = .next u ∧ pixelAt (dark []).W t.fb 3 5 = true :=
  ⟨dark_accepting [], by decide, by decide, by decide, _, _, rfl, rfl, by decide +kernel⟩
theorem witness_DrawbitmapWritesEverySample :
    let s := panel (ramp (0x2000#32).toNat 1536 7) [] 0x2000 0 0
    s.Accepting ∧ ∀ i < s.W * s.H, Admits s (s.srcBase.toNat + i) 7 := by
  refine ⟨ramp_accepting 7 1536 0x2000 0 0 (by decide), fun i hi => ?_⟩
  have hi : i < 1536 := hi
  refine ⟨?_, read_ramp 7 1536 _ i hi⟩
  show 0x2000 + i < 2 ^ 32
  omega
/-- All samples backed but the last. -/
def almostAll : State := panel (ramp (0x2000#32).toNat 1535 7) [] 0x2000 0 0
/-- The source base is the last address there is. -/
def atTheTop : State := panel (ramp (0xFFFFFFFF#32).toNat 1 7) [] 0xFFFFFFFF 0 0
/-- The first sample refused, a later one, and one whose address is 2^32. -/
theorem witness_DrawbitmapStopsAtARefusedSample :
    ((dark []).Accepting ∧ 0 < (dark []).W * (dark []).H ∧
      (∀ j < 0, Admits (dark []) ((dark []).srcBase.toNat + j) 7) ∧ Refuses (dark []) ((dark []).srcBase.toNat + 0)) ∧
    (almostAll.Accepting ∧ 1535 < almostAll.W * almostAll.H ∧
      (∀ j < 1535, Admits almostAll (almostAll.srcBase.toNat + j) 7) ∧ Refuses almostAll (almostAll.srcBase.toNat + 1535)) ∧
    (atTheTop.Accepting ∧ 1 < atTheTop.W * atTheTop.H ∧ (∀ j < 1, Admits atTheTop (atTheTop.srcBase.toNat + j) 7) ∧
      Refuses atTheTop (atTheTop.srcBase.toNat + 1)) := by
  refine ⟨⟨dark_accepting [], by decide, fun _ h => by omega, .inr rfl⟩,
    ⟨ramp_accepting 7 1535 0x2000 0 0 (by decide), by decide, fun j hj => ⟨?_, read_ramp 7 1535 _ j hj⟩,
      .inr (by decide +kernel)⟩,
    ⟨ramp_accepting 7 1 0xFFFFFFFF 0 0 (by decide), by decide, fun j hj => ⟨?_, read_ramp 7 1 _ j hj⟩, .inl (by decide)⟩⟩
  · show 0x2000 + j < 2 ^ 32
    omega
  · show 0xFFFFFFFF + j < 2 ^ 32
    omega
/-- One image pixel on the last pixel of the panel. -/
theorem witness_DrawimageCompositesTheImage :
    let s := panel (ramp (0x12000#32).toNat 4 1) [] 0x12000 1 1
    s.Accepting ∧ LandsAt s 95 15 0 0 95 15 ∧
      ∀ ix iy X Y, LandsAt s 95 15 ix iy X Y → ∀ j < 4, Admits s (imageAddr s ix iy j) 1 := by
  refine ⟨ramp_accepting 1 4 0x12000 1 1 (by decide), ⟨by decide, by decide, by decide, by decide, by decide, by decide⟩, fun ix iy X Y h j hj => ?_⟩
  obtain ⟨h1, h2, _⟩ := h
  have h1 : ix < 1 := h1
  have h2 : iy < 1 := h2
  obtain rfl : ix = 0 := by omega
  obtain rfl : iy = 0 := by omega
  interval_cases j <;> exact ⟨by decide, rfl⟩
/-- The read of the last component of the one image pixel is refused. -/
theorem witness_DrawimageStopsAtTheFirstRefusedRead :
    let s := panel (ramp (0x12000#32).toNat 3 1) [] 0x12000 1 1
    s.Accepting ∧ LandsAt s 0 0 0 0 0 0 ∧ Refuses s (imageAddr s 0 0 3) ∧
      ∀ ix iy X Y j, LandsAt s 0 0 ix iy X Y → j < 4 → ReadBefore s X Y j 0 0 3 → Admits s (imageAddr s ix iy j) 1 := by
  refine ⟨ramp_accepting 1 3 0x12000 1 1 (by decide), ⟨by decide, by decide, by decide, by decide, by decide, by decide⟩, .inr rfl, fun ix iy X Y j h hj hb => ?_⟩
  obtain ⟨h1, h2, _⟩ := h
  have h1 : ix < 1 := h1
  have h2 : iy < 1 := h2
  obtain rfl : ix = 0 := by omega
  obtain rfl : iy = 0 := by omega
  have hj : j < 3 := by
    rcases hb with hb | ⟨_, hb | ⟨_, hb⟩⟩
    · omega
    · omega
    · exact hb
  interval_cases j <;> exact ⟨by decide, rfl⟩
theorem witness_DrawimageOffPanelReadsNothing :
    (dark []).Accepting ∧ (dark []).srcW = 0 ∧ (dark []).srcH = 0 ∧ ((dark []).W : Int) ≤ 96 ∧ ((dark []).H : Int) ≤ 16 ∧
    (-4 : Int) ≤ -((panel [] [] 0 4 3).srcW.toNat : Int) ∧ (-3 : Int) ≤ -((panel [] [] 0 4 3).srcH.toNat : Int) :=
  ⟨dark_accepting [], by decide, by decide, by decide, by decide, by decide, by decide⟩
/-- Ready at the first and at the last read, and never. -/
theorem witness_FlushSendsTheWholeBuffer :
    ((dark [0]).Accepting ∧ ReadyAt (dark [0]) 0) ∧
    ((dark [0x80, 0xFF, 0x7F]).Accepting ∧ ReadyAt (dark [0x80, 0xFF, 0x7F]) 2) ∧ BusyThroughout (dark [0x80, 0xFF, 0x80]) :=
  ⟨⟨dark_accepting _, dark_ready _⟩, ⟨dark_accepting _, dark_ready_last⟩, dark_busy⟩
/-- The last count that goes byte by byte: 27 on the small panel. -/
theorem witness_FlushdirtySendsEachDirtyByte :
    (marked 27 [0]).Accepting ∧ 7 * dcount (marked 27 [0]) ≤ (marked 27 [0]).L ∧ ReadyAt (marked 27 [0]) 0 :=
  ⟨marked_accepting 27 (by omega) _, by decide +kernel, ⟨by show 0 < 3; omega, rfl, fun _ h => by omega⟩⟩
/-- Both sides of the boundary on the three panels. -/
theorem witness_RefreshDecision :
    prefersFull (marked 27 []) = false ∧ prefersFull (marked 28 []) = true ∧
    prefersFull { wide [] [] 0 0 0 with dirty := List.replicate 73 true } = false ∧
    prefersFull { wide [] [] 0 0 0 with dirty := List.replicate 74 true } = true ∧
    prefersFull { wide [] [] 0 0 0 with cfgH := 64, dirty := List.replicate 146 true } = false ∧
    prefersFull { wide [] [] 0 0 0 with cfgH := 64, dirty := List.replicate 147 true } = true := by decide +kernel
theorem witness_BusyDeviceTimesOut :
    BusyThroughout (dark [0x80, 0xFF, 0x80]) ∧ (dark [0x80, 0xFF, 0x80]).params.pollMax < 2 ^ 32 :=
  ⟨dark_busy, by decide⟩
theorem witness_DirtySetIsEmptyAfterARefresh :
    (Instr.setpixel 0 0 .set true).refreshes = true ∧
    ∃ t, exec (.setpixel 0 0 .set true) (dark [0]) = .next t ∧ t.halt = false := ⟨rfl, _, rfl, by decide +kernel⟩
/-- Both branches of FLUSHDIRTY. -/
theorem witness_RefreshTraffic :
    ((marked 27 [0]).Accepting ∧ ReadyAt (marked 27 [0]) 0 ∧ 7 * dcount (marked 27 [0]) ≤ (marked 27 [0]).L) ∧
    ((marked 28 [0]).Accepting ∧ ReadyAt (marked 28 [0]) 0 ∧ (marked 28 [0]).L < 7 * dcount (marked 28 [0])) :=
  ⟨⟨marked_accepting 27 (by omega) _, ⟨by show 0 < 3; omega, rfl, fun _ h => by omega⟩, by decide +kernel⟩,
    ⟨marked_accepting 28 (by omega) _, ⟨by show 0 < 3; omega, rfl, fun _ h => by omega⟩, by decide +kernel⟩⟩
theorem witness_TwoFlushesSendTheSameBursts :
    ∃ t u, exec .flush (dark [0, 0]) = .next t ∧ t.halt = false ∧ exec .flush t = .next u ∧ u.halt = false :=
  ⟨_, _, rfl, by decide +kernel, rfl, by decide +kernel⟩
theorem witness_ClearThenFlushSendsZeros :
    ∃ t u, exec .clear (dark [0]) = .next t ∧ exec .flush t = .next u ∧ u.halt = false :=
  ⟨_, _, rfl, rfl, by decide +kernel⟩
/-- Both branches: the part before the tail completes, and it faults. -/
theorem witness_SyncTailIsFlushdirty :
    ((Instr.setpixel 0 0 .set true).draws = true ∧ (dark [0]).halt = false ∧
      ∃ t, exec ((Instr.setpixel 0 0 .set true).withSync false) (dark [0]) = .next t ∧ t.halt = false) ∧
    ((Instr.drawbitmap true).draws = true ∧
      ∃ t, exec ((Instr.drawbitmap true).withSync false) (dark [0]) = .next t ∧ t.halt = true) :=
  ⟨⟨rfl, rfl, _, rfl, by decide +kernel⟩, ⟨rfl, _, rfl, by decide +kernel⟩⟩
/-- A command that sends bursts. -/
theorem witness_NoBurstBeforeReady : ∃ t, exec .flush (dark [0]) = .next t ∧ txCount t.trace = 7 := ⟨_, rfl, by decide +kernel⟩
/-- A command for each clause. -/
theorem witness_WhoWritesWhat :
    (∃ t, exec .flush (dark [0]) = .next t) ∧ Instr.opcode .flush ≠ .setsrc ∧ Instr.draws .flush = false ∧
    Instr.flush ≠ Instr.clear ∧
    (∃ t, exec .clear (dark []) = .next t) ∧ Instr.draws .clear = false ∧ Instr.refreshes .clear = false ∧
    Instr.readsSource .clear = false := ⟨⟨_, rfl⟩, by decide, rfl, by decide, ⟨_, rfl⟩, rfl, rfl, rfl⟩
/-- A time-out, a refused read and a command that completes. -/
theorem witness_OnlyTheTwoExecutionFaults :
    (∃ t, exec .flush (dark [0x80, 0xFF, 0x80]) = .next t ∧ t.halt = true) ∧
    (∃ t, exec (.drawbitmap false) (dark []) = .next t ∧ t.halt = true) ∧
    (∃ t, exec .clear (dark []) = .next t ∧ t.halt = false) :=
  ⟨⟨_, rfl, by decide +kernel⟩, ⟨_, rfl, by decide +kernel⟩, ⟨_, rfl, rfl⟩⟩
/-- A command that does not refresh, and one that times out, with a dirty byte. -/
theorem witness_OnlyACompletedRefreshClearsDirtyBits :
    ((marked 27 []).halt = false ∧ (∃ t, exec .clear (marked 27 []) = .next t) ∧ Instr.refreshes .clear = false ∧
      dirtyAt (marked 27 []) 26 = true) ∧
    (∃ t, exec .flushdirty (marked 27 [0x80, 0x80, 0x80]) = .next t ∧ t.halt = true) :=
  ⟨⟨rfl, ⟨_, rfl⟩, rfl, by decide +kernel⟩, ⟨_, rfl, by decide +kernel⟩⟩
/-- A byte stored to once, between two other stores; a byte stored to twice, the first of the two seen, the last staying;
an address that is not backed. -/
theorem witness_RacingReadsAreOldOrNew :
    (∀ r ∈ [RacingStore.mk 7 1 true], r.addr.toNat ≠ 8) ∧
    (∀ q ∈ [RacingStore.mk 6 1 true] ++ [RacingStore.mk 8 1 false], q.addr ≠ (RacingStore.mk 7 1 true).addr) ∧
    Memory.read (racingView [⟨7, 1, true⟩] (panel (ramp 7 1 0) [] 0 0 0)).src 7 = some 1 ∧
    (∃ t, step { panel (ramp 7 1 0) [] 0 0 0 with
      host := [.command 0x020000000000000000000000 ([⟨6, 1, true⟩] ++ ⟨7, 1, false⟩ :: [])] } = .next t) ∧
    Memory.read (racingView racedStores (panel (ramp 7 1 0) [] 0 0 0)).src 7 = some 1 ∧
    Memory.read (racingView racedStores (panel (ramp 7 1 0) [] 0 0 0)).src 8 = none ∧
    (∀ q ∈ ([] : List RacingStore), q.addr ≠ 7) ∧
    (raced 0x020000000000000000000000).host =
      .command 0x020000000000000000000000 ([⟨7, 1, true⟩, ⟨8, 2, true⟩] ++ ⟨7, 3, false⟩ :: []) :: [] ∧
    ∃ u, step (raced 0x020000000000000000000000) = .next u ∧ Memory.read u.src 7 = some 3 :=
  ⟨by decide, by decide, by decide, ⟨_, rfl⟩, by decide, by decide, by simp, rfl, _, rfl, by decide⟩
theorem witness_SourceAddressesAreDistinct :
    LandsAt (panel [] [] 0x12000 2 1) 94 15 1 0 95 15 ∧
    imageAddr (panel [] [] 0x12000 2 1) 1 0 3 = imageAddr (panel [] [] 0x12000 2 1) 1 0 3 :=
  ⟨⟨by decide, by decide, by decide, by decide, by decide, by decide⟩, rfl⟩
/-- The panel with every sample backed, and a host that presents DRAWBITMAP and stores to the first and the last sample. -/
def racedPanel : State :=
  { panel (ramp (0x2000#32).toNat 1536 0) [] 0x2000 0 0 with
    host := [.command 0x060000000000000000000000 [⟨0x2000, 7, true⟩, ⟨0x25FF, 7, false⟩]] }
theorem witness_RacingDrawbitmapReadsOldOrNew :
    racedPanel.Accepting ∧
    racedPanel.host = .command 0x060000000000000000000000 [⟨0x2000, 7, true⟩, ⟨0x25FF, 7, false⟩] :: [] ∧
    ∀ i < racedPanel.W * racedPanel.H, ∃ b, Admits racedPanel (racedPanel.srcBase.toNat + i) b := by
  refine ⟨{ ramp_accepting 0 1536 0x2000 0 0 (by decide) with }, rfl, fun i hi => ⟨0, ?_, ?_⟩⟩
  · have hi : i < 1536 := hi
    show 0x2000 + i < 2 ^ 32
    omega
  · exact read_ramp 0 1536 _ i hi

end Sys2Proof.Tests
end

section
/-! The state's family of statements: the frame of a command, what one step can do, the invariant, the read port and
reset. -/

namespace Sys2Proof.Machine

/-! ### What each part of a command leaves unchanged (R28) -/

section
variable {i : Instr} {s m t : State}

/-- A command's own writes reach the picture and the source registers only. -/
theorem OwnWrites.frame (h : OwnWrites s i m) :
    m = { s with fb := m.fb, dirty := m.dirty, srcBase := m.srcBase, srcW := m.srcW, srcH := m.srcH } := by
  cases h with
  | draws _ r => rw [r.frame]
  | clears => rfl
  | loads _ _ _ => rfl
  | refreshes _ => rfl

/-- Only SETSRC writes the source registers (R21). -/
theorem OwnWrites.source_registers (h : OwnWrites s i m) (hi : i.opcode ≠ .setsrc) :
    m.srcBase = s.srcBase ∧ m.srcW = s.srcW ∧ m.srcH = s.srcH := by
  cases h with
  | draws _ r => exact ⟨r.srcBase, r.srcW, r.srcH⟩
  | clears => exact ⟨rfl, rfl, rfl⟩
  | loads _ _ _ => exact absurd rfl hi
  | refreshes _ => exact ⟨rfl, rfl, rfl⟩

/-- Only drawing commands and CLEAR write the framebuffer (R18). -/
theorem OwnWrites.fb (h : OwnWrites s i m) (hd : i.draws = false) (hc : i ≠ .clear) : m.fb = s.fb := by
  cases h with
  | draws hi _ => simp [hi] at hd
  | clears => exact absurd rfl hc
  | loads _ _ _ => rfl
  | refreshes _ => rfl

/-- Before its refresh only a drawing command writes the dirty set (R20). -/
theorem OwnWrites.dirty (h : OwnWrites s i m) (hd : i.draws = false) : m.dirty = s.dirty := by
  cases h with
  | draws hi _ => simp [hi] at hd
  | clears => rfl
  | loads _ _ _ => rfl
  | refreshes _ => rfl

/-- No command's own writes lose a dirty mark (R20). -/
theorem OwnWrites.keeps_marks (h : OwnWrites s i m) {k : Nat} (hk : dirtyAt s k = true) : dirtyAt m k = true := by
  cases h with
  | draws _ r => exact r.keeps_marks k hk
  | clears => exact hk
  | loads _ _ _ => exact hk
  | refreshes _ => exact hk

theorem OwnWrites.halt (h : OwnWrites s i m) : m.halt = s.halt := by rw [h.frame]

/-- The end of a command reaches the dirty set, the status and the transport only. -/
theorem Ends.frame (h : Ends m i t) :
    t = { m with
      dirty := t.dirty, halt := t.halt, fcause := t.fcause, finfo := t.finfo
      trace := t.trace, rxIn := t.rxIn, rxCount := t.rxCount } := by
  cases h <;> rfl

/-- Without a refresh the end of a command is nothing, or the entry of SRC_ACCESS. -/
theorem Ends.of_no_refresh (h : Ends m i t) (hi : i.refreshes = false) :
    t = m ∨ i.readsSource = true ∧ ∃ addr, t = enterFault .srcAccess (srcAccessInfo addr) m := by
  cases h with
  | refused addr hr => exact .inr ⟨hr, addr, rfl⟩
  | done _ => exact .inl rfl
  | timedOut hr _ => simp [hi] at hr
  | sent hr _ _ _ => simp [hi] at hr

/-- Only a refresh that completes writes the dirty set, and it leaves the block not halted if it was not (R91, R95). -/
theorem Ends.dirty (h : Ends m i t) : t.dirty = m.dirty ∨ i.refreshes = true ∧ t.halt = m.halt := by
  cases h with
  | refused _ _ => exact .inl rfl
  | done _ => exact .inl rfl
  | timedOut _ _ => exact .inl rfl
  | sent hr _ _ _ => exact .inr ⟨hr, rfl⟩

/-- What a command can write at all; everything else is unchanged (R28). -/
theorem exec_frame (h : exec i s = .next t) :
    t = { s with
      fb := t.fb, dirty := t.dirty, srcBase := t.srcBase, srcW := t.srcW, srcH := t.srcH
      halt := t.halt, fcause := t.fcause, finfo := t.finfo
      trace := t.trace, rxIn := t.rxIn, rxCount := t.rxCount } := by
  obtain ⟨m, hw, he⟩ := exec_cases h
  rw [he.frame, hw.frame]

end

/-! ### One step (R14) -/

/-- Counting a command changes `ci` alone, and not after a fault (R14, R105). -/
theorem retire_frame (t : State) : retire t = { t with ci := if t.halt then t.ci else t.ci + 1 } := by
  unfold retire
  split <;> rfl

/-- With no store meanwhile source memory is the one the command began with. -/
theorem landStores_nil (t : State) : landStores [] t.src t = t := rfl

section
variable {s t : State} {w : CmdWord} {during : List RacingStore} {rest : List HostAction}

theorem hostRest_of_host {a : HostAction} (h : s.host = a :: rest) : hostRest s = { s with host := rest } := by
  rw [hostRest, h, List.drop_one, List.tail_cons]

/-- A block that is not halted accepts the word presented to it (R14). -/
theorem step_command (hs : s.halt = false) (h : s.host = .command w during :: rest) :
    step s = runCommand w during { s with host := rest } := by
  rw [step, h, ← hostRest_of_host h]
  simp [hs]

/-- A legal word: its command runs to an end, is counted unless it faulted, and the stores meanwhile land (R14, R60). -/
theorem runCommand_legal {i : Instr} (h : decode w = .ok i) :
    ∃ t, exec i (racingView during s) = .next t ∧
      runCommand w during s = .next (landStores during s.src (retire t)) := by
  obtain ⟨_, t, ht, _, _⟩ := exec_inversion i (racingView during s)
  exact ⟨t, ht, by simp [runCommand, h, ht]⟩

/-- An illegal word enters ILLEGAL_COMMAND (R58, R60). -/
theorem runCommand_illegal {e : DecodeError} (h : decode w = .error e) :
    runCommand w during s = .next (landStores during s.src (illegalCommand w s)) := by
  simp [runCommand, h]

/-- What an accepted word can do: enter ILLEGAL_COMMAND, or run its command. -/
theorem runCommand_cases (w : CmdWord) (during : List RacingStore) (s : State) :
    (∃ e, decode w = .error e ∧ runCommand w during s = .next (landStores during s.src (illegalCommand w s))) ∨
    ∃ i t, decode w = .ok i ∧ exec i (racingView during s) = .next t ∧
      runCommand w during s = .next (landStores during s.src (retire t)) := by
  cases h : decode w with
  | error e => exact .inl ⟨e, rfl, runCommand_illegal h⟩
  | ok i =>
    obtain ⟨t, ht, e⟩ := runCommand_legal h
    exact .inr ⟨i, t, rfl, ht, e⟩

end

/-- Every way a step answers a next state, by the host's next action (R14). -/
inductive StepsTo (s : State) : State → Prop where
  | waits (hs : s.halt = false) (hh : s.host = []) : StepsTo s s
  | resets (inputs : Construction) (rest : List HostAction) (hh : s.host = .reset inputs :: rest) :
      StepsTo s (hostReset inputs (hostRest s))
  | stores (addr : BitVec 32) (v : Byte) (rest : List HostAction) (hh : s.host = .store addr v :: rest) :
      StepsTo s (hostStore addr v (hostRest s))
  | faults (w : CmdWord) (during : List RacingStore) (rest : List HostAction) (hs : s.halt = false)
      (hh : s.host = .command w during :: rest) (e : DecodeError) (hw : decode w = .error e) :
      StepsTo s (landStores during s.src (illegalCommand w (hostRest s)))
  | runs (w : CmdWord) (during : List RacingStore) (rest : List HostAction) (hs : s.halt = false)
      (hh : s.host = .command w during :: rest) (i : Instr) (hw : decode w = .ok i) (u : State)
      (hu : exec i (racingView during (hostRest s)) = .next u) : StepsTo s (landStores during s.src (retire u))

/-- Everything a step can do (one inversion for every host action). -/
theorem step_inversion {s t : State} (h : step s = .next t) : StepsTo s t := by
  match hh : s.host with
  | [] =>
    cases hs : s.halt <;> simp [step, hh, hs] at h
    exact h ▸ .waits hs hh
  | .reset inputs :: rest =>
    simp only [step, hh, Host.Outcome.next.injEq] at h
    exact h ▸ .resets inputs rest hh
  | .store addr v :: rest =>
    simp only [step, hh, Host.Outcome.next.injEq] at h
    exact h ▸ .stores addr v rest hh
  | .command w during :: rest =>
    cases hs : s.halt with
    | true => simp [step, hh, hs] at h
    | false =>
      rw [step_command hs hh, ← hostRest_of_host hh] at h
      obtain ⟨e, hw, hr⟩ | ⟨i, u, hw, hu, hr⟩ := runCommand_cases w during (hostRest s) <;>
        rw [hr] at h <;> cases h
      · exact .faults w during rest hs hh e hw
      · exact .runs w during rest hs hh i hw u hu

/-! ### Words made of fields side by side -/

/-- The value of two fields side by side. -/
theorem toNat_append_eq_add {n m : Nat} (x : BitVec n) (y : BitVec m) :
    (x ++ y).toNat = x.toNat * 2 ^ m + y.toNat := by
  rw [BitVec.toNat_append, ← Nat.shiftLeft_add_eq_or_of_lt y.isLt, Nat.shiftLeft_eq]

/-! ### The invariant (R17 to R22, R103, R119) -/

section
variable {s m t : State} {i : Instr}

/-- FINFO of a CONFIG_ERROR is the two sizes side by side (R103). -/
theorem toNat_configErrorInfo (w h : Byte) : (configErrorInfo w h).toNat = h.toNat * 256 + w.toNat := by
  show (0#16 ++ h ++ w).toNat = _
  simp only [toNat_append_eq_add, BitVec.toNat_ofNat]
  omega

/-- A reset state is sound whatever its construction inputs: the geometry check makes CONFIG_ERROR exactly an
unsupported geometry (R119). -/
theorem State.construct_sound (inputs : Construction) (n : Nat) {params : Params} {src : Memory}
    (host : List HostAction) (rxIn : List Byte) (rxCount : Nat) (hp : 1 ≤ params.pollMax) (hsrc : src.wf = true) :
    (State.construct inputs n params src host rxIn rxCount).Sound where
  fb_length := by simp [State.construct, resetFramebuffer, State.L]
  dirty_length := List.length_replicate
  halt_iff := by
    dsimp only [State.construct]
    cases supportedGeometry (inputs.w.getD defaultW) (inputs.h.getD defaultH) <;> decide
  cause_known := by
    dsimp only [State.construct]
    split <;> decide
  finfo_clear h := by
    dsimp only [State.construct] at h ⊢
    rw [if_pos (by simpa using h)]
  config_fault := by
    dsimp only [State.construct]
    cases supportedGeometry (inputs.w.getD defaultW) (inputs.h.getD defaultH) <;> decide
  config_info h := by
    dsimp only [State.construct, State.H, State.W] at h ⊢
    split
    · next hg => simp [hg] at h
    · exact toNat_configErrorInfo _ _
  poll_max := hp
  src_wf := hsrc

theorem Repainted.sound (h : Repainted s t) (hs : s.Sound) : t.Sound := by
  rw [h.frame]
  exact { hs with
    fb_length := h.fb_length.trans hs.fb_length
    dirty_length := h.dirty_length.trans hs.dirty_length }

theorem OwnWrites.sound (h : OwnWrites s i m) (hs : s.Sound) : m.Sound := by
  cases h with
  | draws _ r => exact r.sound hs
  | clears => exact { hs with fb_length := List.length_replicate }
  | loads _ _ _ => exact { hs with }
  | refreshes _ => exact hs

theorem probed_sound (hs : s.Sound) (n : Nat) : (probed s n).Sound := { hs with }

/-- A block that accepts commands has a supported geometry, so the entry of any fault but CONFIG_ERROR is sound. -/
theorem enterFault_sound (hs : s.Sound) (hh : s.halt = false) {cause : Cause} (hc : cause ≠ .configError)
    (info : BitVec 32) : (enterFault cause info s).Sound := by
  have hg : supportedGeometry s.cfgW s.cfgH = true := (State.Accepting.panel ⟨hs, hh⟩).supported
  exact { hs with
    halt_iff := by cases cause <;> simp [causeCode]
    cause_known := by cases cause <;> simp [causeCode]
    finfo_clear := nofun
    config_fault := by cases cause <;> simp [causeCode, hg] at hc ⊢
    config_info := by cases cause <;> simp [causeCode] at hc ⊢ }

theorem Ends.sound (h : Ends m i t) (hm : m.Sound) (hh : m.halt = false) : t.Sound := by
  cases h with
  | refused _ _ => exact enterFault_sound hm hh (by decide) _
  | done _ => exact hm
  | timedOut _ _ => exact enterFault_sound (probed_sound hm _) hh (by decide) _
  | sent _ _ _ _ => exact { hm with dirty_length := List.length_replicate }

/-- A command that an accepting block runs keeps the invariant. -/
theorem exec_sound (hs : s.Sound) (hh : s.halt = false) (h : exec i s = .next t) : t.Sound := by
  obtain ⟨m, hw, he⟩ := exec_cases h
  exact he.sound (hw.sound hs) (hw.halt.trans hh)

theorem hostRest_sound (hs : s.Sound) : (hostRest s).Sound := { hs with }

theorem hostStore_sound (hs : s.Sound) (addr : BitVec 32) (v : Byte) : (hostStore addr v s).Sound :=
  { hs with src_wf := (Memory.store_wf s.src addr.toNat v).trans hs.src_wf }

theorem racingView_sound (hs : s.Sound) (during : List RacingStore) : (racingView during s).Sound :=
  { hs with src_wf := (Memory.storeAll_wf _ s.src).trans hs.src_wf }

theorem landStores_sound (hs : s.Sound) (during : List RacingStore) {m : Memory} (hm : m.wf = true) :
    (landStores during m s).Sound :=
  { hs with src_wf := (Memory.storeAll_wf during m).trans hm }

theorem retire_sound (hs : s.Sound) : (retire s).Sound := by
  rw [retire_frame]
  exact { hs with }

end

/-! ### The state after reset (R27) -/

/-- A reset empties the dirty set (R27). -/
theorem dirtyAt_construct (inputs : Construction) (n : Nat) (params : Params) (src : Memory) (host : List HostAction)
    (rxIn : List Byte) (rxCount k : Nat) :
    dirtyAt (State.construct inputs n params src host rxIn rxCount) k = false := by
  simp only [dirtyAt, State.construct, resetDirty, List.getD_eq_getElem?_getD, List.getElem?_replicate]
  split <;> rfl

/-! ### The host read port (R23) -/

/-- The STATUS word: HALT in bit 0, FCAUSE in bits 7 to 4, every other bit 0 (R23). -/
theorem getLsbD_statusWord (halt : Bool) (fcause : BitVec 4) (b : Nat) :
    (statusWord halt fcause).getLsbD b =
      ((decide (b = 0) && halt) || (decide (4 ≤ b ∧ b < 8) && fcause.getLsbD (b - 4))) := by
  show (0#24 ++ fcause ++ 0#3 ++ BitVec.ofBool halt).getLsbD b = _
  simp only [BitVec.getLsbD_append, BitVec.getLsbD_ofBool, BitVec.getLsbD_zero]
  split
  · next h => simp [show b = 0 by omega]
  · next h =>
    have h0 : b ≠ 0 := by omega
    split
    · next h3 => simp [h0, show ¬4 ≤ b by omega]
    · next h3 =>
      have hiff : 4 ≤ b ∧ b < 8 ↔ b - 4 < 4 := by omega
      simp [h0, hiff, show b - 1 - 3 = b - 4 by omega]

/-- DCOUNT fits the 32 bits of the read port with any geometry (R20, R23). -/
theorem dcount_lt {s : State} (hs : s.Sound) : dcount s < 2 ^ 32 := by
  have h1 : dcount s ≤ s.cfgW.toNat * s.cfgH.toNat / 8 :=
    List.count_le_length.trans_eq hs.dirty_length
  have h2 : s.cfgW.toNat * s.cfgH.toNat < 256 * 256 := Nat.mul_lt_mul'' s.cfgW.isLt s.cfgH.isLt
  omega

section
variable {s : State} {k : Nat}

/-- Past the registers only the framebuffer's and the dirty set's ranges answer (R23). -/
theorem readPort_of_gt {a : Nat} (ha : 5 < a) : readPort s a =
    if 0x1000 ≤ a ∧ a - 0x1000 < s.L then (fbAt s (a - 0x1000)).setWidth 32
    else if 0x2000 ≤ a ∧ a - 0x2000 < s.L then (BitVec.ofBool (dirtyAt s (a - 0x2000))).setWidth 32
    else 0 := by
  unfold readPort
  iterate 6 rw [if_neg (by omega)]

/-- The framebuffer range (R23). -/
theorem readPort_fb (hk : k < s.L) : readPort s (0x1000 + k) = (fbAt s k).setWidth 32 := by
  rw [readPort_of_gt (by omega), if_pos (by omega), Nat.add_sub_cancel_left]

/-- The dirty range, which lies above the framebuffer's as long as `L` is at most 0x1000 (R23). -/
theorem readPort_dirty (hL : s.L ≤ 0x1000) (hk : k < s.L) :
    readPort s (0x2000 + k) = (BitVec.ofBool (dirtyAt s k)).setWidth 32 := by
  rw [readPort_of_gt (by omega), if_neg (by omega), if_pos (by omega), Nat.add_sub_cancel_left]

/-- Outside the registers and the two ranges the read port answers 0 (R23). -/
theorem readPort_unmapped {a : Nat} (ha : 5 < a) (hf : ¬(0x1000 ≤ a ∧ a < 0x1000 + s.L))
    (hd : ¬(0x2000 ≤ a ∧ a < 0x2000 + s.L)) : readPort s a = 0 := by
  rw [readPort_of_gt ha, if_neg (by omega), if_neg (by omega)]

end

/-! ### The statements of the family -/

/-- Settles O16: each way a step answers keeps the invariant. -/
theorem stepKeepsSound : Obligations.StepKeepsSound := by
  intro s t hs h
  have hr := hostRest_sound hs
  cases step_inversion h with
  | waits _ _ => exact hs
  | resets inputs _ _ => exact State.construct_sound inputs _ _ _ _ hs.poll_max hs.src_wf
  | stores addr v _ _ => exact hostStore_sound hr addr v
  | faults _ during _ hh _ _ _ => exact landStores_sound (enterFault_sound hr hh (by decide) _) during hs.src_wf
  | runs _ during _ hh _ _ _ u hu =>
    exact landStores_sound (retire_sound (exec_sound (racingView_sound hr _) hh hu)) during hs.src_wf

/-- Settles O11: an illegal word halts without counting; a command keeps `ci`, and `retire` counts it unless
it halted. -/
theorem commandIndexCountsCompletedCommands : Obligations.CommandIndexCountsCompletedCommands := by
  intro s w during rest hs hh
  rw [step_command hs hh]
  obtain ⟨_, _, e⟩ | ⟨i, u, _, hu, e⟩ := runCommand_cases w during { s with host := rest } <;>
    refine ⟨_, e, ?_⟩
  · exact ⟨rfl, nofun, fun _ => rfl⟩
  · have hf := exec_frame hu
    have hci : u.ci = s.ci := by rw [hf]; rfl
    have hhost : u.host = rest := by rw [hf]; rfl
    rw [retire_frame]
    refine ⟨hhost, fun h => ?_, fun h => ?_⟩
    · have h : u.halt = false := h
      simp [h, hci]
    · have h : u.halt = true := h
      simp [h, hci]

/-- Settles O17: of the ways a step answers, only a reset writes the configuration. -/
theorem onlyResetWritesConfiguration : Obligations.OnlyResetWritesConfiguration := by
  intro s t h hreset
  cases step_inversion h with
  | waits _ _ => exact ⟨rfl, rfl, rfl, rfl, rfl⟩
  | resets inputs rest hh => exact absurd hh (hreset inputs rest)
  | stores _ _ _ _ => exact ⟨rfl, rfl, rfl, rfl, rfl⟩
  | faults _ _ _ _ _ _ _ => exact ⟨rfl, rfl, rfl, rfl, rfl⟩
  | runs _ _ _ _ _ _ _ u hu =>
    rw [retire_frame, exec_frame hu]
    exact ⟨rfl, rfl, rfl, rfl, rfl⟩

/-- Settles O19: the registers with any geometry; the two ranges do not overlap on a supported panel. -/
theorem readPortMap : Obligations.ReadPortMap := by
  intro s hs
  refine ⟨?_, getLsbD_statusWord s.halt s.fcause, rfl, ?_, rfl, toNat_append_eq_add s.srcH s.srcW, fun hg => ?_⟩
  · show (0#8 ++ s.cfgAddr ++ s.cfgH ++ s.cfgW).toNat = _
    simp only [toNat_append_eq_add, BitVec.toNat_ofNat]
    omega
  · exact Nat.mod_eq_of_lt (dcount_lt hs)
  · have hL : s.L ≤ 1024 := by
      have hp : s.Panel := ⟨hg, hs.fb_length, hs.dirty_length⟩
      obtain ⟨_, _, h⟩ | ⟨_, _, h⟩ | ⟨_, _, h⟩ := hp.sizes <;> omega
    refine ⟨fun k hk => ?_, fun k hk => ?_, fun a ha hf hd => readPort_unmapped ha hf hd⟩
    · rw [readPort_fb hk, BitVec.toNat_setWidth_of_le (by decide)]
    · rw [readPort_dirty (by omega) hk, BitVec.toNat_setWidth_of_le (by decide), BitVec.toNat_ofBool]

/-- Settles O53: each class of command by its own writes, then by its end. -/
theorem whoWritesWhat : Obligations.WhoWritesWhat := by
  intro i s t h
  have hf := exec_frame h
  obtain ⟨m, hw, he⟩ := exec_cases h
  refine ⟨?_, ?_, ?_, ?_, ?_, ?_⟩
  · rw [hf]
    exact ⟨rfl, rfl, rfl, rfl, rfl, rfl, rfl, rfl⟩
  · intro hi
    rw [he.frame]
    exact hw.source_registers hi
  · intro hd hc
    rw [he.frame]
    exact hw.fb hd hc
  · intro hd hr
    obtain rfl | ⟨_, addr, rfl⟩ := he.of_no_refresh hr <;> exact hw.dirty hd
  · intro hs hr
    obtain rfl | ⟨hs', _⟩ := he.of_no_refresh hr
    · rw [hw.frame]
      exact ⟨rfl, rfl, rfl⟩
    · simp [hs] at hs'
  · intro hr
    obtain rfl | ⟨_, addr, rfl⟩ := he.of_no_refresh hr <;> rw [hw.frame] <;> exact ⟨rfl, rfl, rfl⟩

/-- Settles O55: own writes keep every mark, and an end that empties the dirty set is a refresh that did not halt. -/
theorem onlyACompletedRefreshClearsDirtyBits : Obligations.OnlyACompletedRefreshClearsDirtyBits := by
  intro i s t k hs h hi hk
  obtain ⟨m, hw, he⟩ := exec_cases h
  have hm : dirtyAt m k = true := hw.keeps_marks hk
  obtain hd | ⟨hr, hh⟩ := he.dirty
  · rwa [dirtyAt, hd]
  · simp [hr, hh, hw.halt, hs] at hi

/-- Settles O7: the decoded command on the memory it finds, then its count and the stores. -/
theorem stepRunsDecodedCommand : Obligations.StepRunsDecodedCommand := by
  constructor
  · intro s w during rest i hs hh hd
    rw [step_command hs hh]
    exact runCommand_legal hd
  · intro s w rest i hs hh hd
    rw [step_command hs hh]
    obtain ⟨t, ht, e⟩ := runCommand_legal (during := []) (s := { s with host := rest }) hd
    rw [racingView_nil] at ht
    have hsrc : (retire t).src = s.src := by rw [retire_frame, exec_frame ht]
    refine ⟨t, ht, ?_⟩
    rw [e, ← hsrc]
    exact congrArg _ (landStores_nil _)

/-- Settles O10: with nothing pending the step's first branch answers the state itself. -/
theorem idleBlockWaits : Obligations.IdleBlockWaits := by
  intro s hs hh
  simp [step, hh, hs]

/-- Settles O15: `POLL_MAX` after reset is a successor, and no source address is listed. -/
theorem resetIsSound : Obligations.ResetIsSound :=
  State.construct_sound _ _ _ _ _ (Nat.le_add_left 1 _) rfl

/-- Settles O12: the lengths by soundness, the empty dirty set by `dirtyAt_construct`, the rest as `State.construct`
writes it. -/
theorem resetStateIsAsTheTableSays : Obligations.ResetStateIsAsTheTableSays :=
  ⟨rfl, rfl, rfl, resetIsSound.fb_length, resetIsSound.dirty_length, dirtyAt_construct _ _ _ _ _ _ _,
    rfl, rfl, rfl, rfl, rfl, rfl, rfl, rfl⟩

end Sys2Proof.Machine
end

section
/-! The source memory's family of statements: what a read finds after the host's stores, between commands and during one,
where the reads go, and that the probe stands before every burst. -/

namespace Sys2Proof.Machine

/-! ### What a read finds after the host's stores (R31, R40, R41) -/

section
variable {l before after : List RacingStore} {r : RacingStore} {a : Nat} {b : Byte}

/-- Stores to other addresses leave a byte. -/
theorem Memory.read_storeAll_of_ne (m : Memory) (h : ∀ q ∈ l, q.addr.toNat ≠ a) :
    Memory.read (Memory.storeAll m l) a = Memory.read m a := by
  obtain ⟨_, e⟩ | ⟨b, q, c, rfl, hq, _, _⟩ := Memory.read_storeAll a l m
  · exact e
  · exact absurd hq (h q (by simp))

/-- After several stores a backed byte is the old one or one of those stored to it. -/
theorem Memory.read_storeAll_mem {m : Memory} (h : Memory.read (Memory.storeAll m l) a = some b) :
    Memory.read m a = some b ∨ ∃ q ∈ l, q.addr.toNat = a ∧ q.v = b := by
  obtain ⟨_, e⟩ | ⟨pre, q, post, rfl, hq, _, e⟩ := Memory.read_storeAll a l m <;> rw [e] at h
  · exact .inl h
  · obtain ⟨_, _, hv⟩ := Option.map_eq_some_iff.1 h
    exact .inr ⟨q, by simp, hq, hv⟩

/-- Stores leave the set of backed addresses (log 13). -/
theorem Memory.read_storeAll_eq_none (m : Memory) (l : List RacingStore) (a : Nat) :
    Memory.read (Memory.storeAll m l) a = none ↔ Memory.read m a = none := by
  obtain ⟨_, e⟩ | ⟨_, _, _, _, _, _, e⟩ := Memory.read_storeAll a l m <;> rw [e]
  exact Option.map_eq_none_iff

/-- A byte is the last one stored to it, where its address is backed. -/
theorem Memory.read_storeAll_last (m : Memory) (h : ∀ q ∈ after, q.addr ≠ r.addr) :
    Memory.read (Memory.storeAll m (before ++ r :: after)) r.addr.toNat =
      (Memory.read m r.addr.toNat).map fun _ => r.v := by
  have hafter : ∀ q ∈ after, q.addr.toNat ≠ r.addr.toNat := fun q hq e => h q hq (BitVec.eq_of_toNat_eq e)
  rw [Memory.storeAll_append, Memory.storeAll_cons, Memory.read_storeAll_of_ne _ hafter, Memory.read_store, if_pos rfl]
  obtain ⟨_, e⟩ | ⟨_, _, _, _, _, _, e⟩ := Memory.read_storeAll r.addr.toNat before m <;> rw [e]
  exact Option.map_map ..

/-- A command finds the old byte, or a byte whose store it sees. -/
theorem read_racingView_mem {s : State} (h : Memory.read (racingView l s).src a = some b) :
    Memory.read s.src a = some b ∨ ∃ q ∈ l, q.addr.toNat = a ∧ q.seen = true ∧ q.v = b := by
  obtain h | ⟨q, hq, ha, hv⟩ := Memory.read_storeAll_mem h
  · exact .inl h
  · obtain ⟨hl, hs⟩ := List.mem_filter.1 hq
    exact .inr ⟨q, hl, ha, hs, hv⟩

/-- An address is backed for a command exactly when it was backed before it (log 13). -/
theorem read_racingView_eq_none (s : State) (l : List RacingStore) (a : Nat) :
    Memory.read (racingView l s).src a = none ↔ Memory.read s.src a = none :=
  Memory.read_storeAll_eq_none s.src _ a

/-- An address admitted before the command is admitted to it, with the byte it finds there. -/
theorem Admits.exists_racingView {s : State} (h : Admits s a b) (l : List RacingStore) :
    ∃ c, Admits (racingView l s) a c := by
  obtain ⟨hlt, hb⟩ := h
  have hne : Memory.read (racingView l s).src a ≠ none := by
    rw [ne_eq, read_racingView_eq_none, hb]
    exact Option.some_ne_none b
  obtain ⟨c, hc⟩ := Option.ne_none_iff_exists'.1 hne
  exact ⟨c, hlt, hc⟩

/-- A byte stored to once is found as that store's own flag says (R41). -/
theorem read_racingView_once (s : State) (h : ∀ q ∈ before ++ after, q.addr ≠ r.addr) :
    Memory.read (racingView (before ++ r :: after) s).src r.addr.toNat =
      if r.seen then (Memory.read s.src r.addr.toNat).map fun _ => r.v else Memory.read s.src r.addr.toNat := by
  rw [racingView_src, List.filter_append, List.filter_cons]
  split
  · exact Memory.read_storeAll_last _ fun q hq => h q (List.mem_append_right _ (List.mem_filter.1 hq).1)
  · rw [← List.filter_append]
    exact Memory.read_storeAll_of_ne _ fun q hq e => h q (List.mem_filter.1 hq).1 (BitVec.eq_of_toNat_eq e)

end

/-- A step that accepts a word ends with every store of the host landed, whether its command faults or not (log 10). -/
theorem src_of_step_command {s t : State} {w : CmdWord} {during : List RacingStore} {rest : List HostAction}
    (hh : s.host = .command w during :: rest) (h : step s = .next t) : t.src = Memory.storeAll s.src during := by
  cases step_inversion h with
  | waits _ g => simp [hh] at g
  | resets _ _ g => simp [hh] at g
  | stores _ _ _ g => simp [hh] at g
  | faults _ _ _ _ g _ _ => cases hh.symm.trans g; rfl
  | runs _ _ _ _ g _ _ _ _ => cases hh.symm.trans g; rfl

/-! ### Where the reads go (R33, R39) -/

/-- An address names one component of one image pixel (R39). -/
theorem imageAddr_inj {s : State} {ix iy j ix' iy' j' : Nat} (hx : ix < s.srcW.toNat) (hx' : ix' < s.srcW.toNat)
    (hj : j < 4) (hj' : j' < 4) (h : imageAddr s ix iy j = imageAddr s ix' iy' j') : ix = ix' ∧ iy = iy' ∧ j = j' := by
  unfold imageAddr at h
  have hpixel : iy * s.srcW.toNat + ix = iy' * s.srcW.toNat + ix' := by omega
  obtain ⟨h1, h2⟩ := (sample_pixel hx).2 hpixel
  obtain ⟨h1', h2'⟩ := (sample_pixel hx').2 (Eq.refl (iy' * s.srcW.toNat + ix'))
  exact ⟨h1.trans h1'.symm, h2.trans h2'.symm, by omega⟩

/-- An image pixel lands on one panel pixel only (R84). -/
theorem LandsAt.target_unique {s : State} {dx dy : Int} {ix iy X Y X' Y' : Nat} (h : LandsAt s dx dy ix iy X Y)
    (g : LandsAt s dx dy ix iy X' Y') : X = X' ∧ Y = Y' := by
  obtain ⟨_, _, _, _, h1, h2⟩ := h
  obtain ⟨_, _, _, _, g1, g2⟩ := g
  omega

/-! ### DRAWBITMAP with every sample admitted (R83) -/

/-- All samples drawn, then the sync tail. -/
theorem exec_drawbitmap_admitted {s : State} {smp : Nat → Byte} (hp : s.Panel)
    (ha : ∀ i < s.W * s.H, Admits s (s.srcBase.toNat + i) (smp i)) (sync : Bool) :
    ∃ u, Repainted s u ∧ Sampled s smp (s.W * s.H) u.fb u.dirty ∧
      exec (.drawbitmap sync) s = finish (syncTail sync u) := by
  obtain ⟨u, hu, hs, e⟩ := bitmapLoop_admitted hp [] (s.W * s.H) 0 s (.refl s) (.zero hp smp) (by simpa using ha)
  rw [List.append_nil, ← List.range_eq_range'] at e
  rw [Nat.zero_add] at hs
  exact ⟨u, hu, hs, by rw [exec, execDrawbitmap, e]; rfl⟩

/-! ### The probe before the bursts (R46, R88) -/

/-- The first `n` answers of the device to come. -/
def probeAnswers (s : State) (n : Nat) : List Byte := (List.range n).map (statusAt s)

theorem length_probeAnswers (s : State) (n : Nat) : (probeAnswers s n).length = n := by simp [probeAnswers]

theorem probed_trace (s : State) (n : Nat) : (probed s n).trace = s.trace ++ (probeAnswers s n).map (.rx s.cfgAddr) := by
  simp [probed, probeAnswers, Function.comp_def]

/-- The answers of a probe that goes on: busy ones, then a ready one (R88). -/
theorem ReadyAt.probeAnswers_eq {s : State} {q : Nat} (h : ReadyAt s q) :
    ∃ busy last, probeAnswers s (q + 1) = busy ++ [last] ∧ last.getLsbD 7 = false ∧ ∀ b ∈ busy, b.getLsbD 7 = true := by
  obtain ⟨_, hready, hbusy⟩ := h
  refine ⟨probeAnswers s q, statusAt s q, ?_, hready, fun b hb => ?_⟩
  · rw [probeAnswers, List.range_succ, List.map_append]; rfl
  · obtain ⟨i, hi, rfl⟩ := List.mem_map.1 hb
    exact hbusy i (List.mem_range.1 hi)

/-- What the events added to `s` by a command that ends in `t` look like (R46): status reads, at most `POLL_MAX`, then
bursts, which are sent only after a ready answer. -/
def ProbedThenSent (s t : State) : Prop :=
  ∃ (answers : List Byte) (bursts : List (List Byte)),
    t.trace = s.trace ++ answers.map (.rx s.cfgAddr) ++ bursts.map (.tx s.cfgAddr) ∧
    answers.length ≤ s.params.pollMax ∧
    (bursts ≠ [] → ∃ busy last, answers = busy ++ [last] ∧ last.getLsbD 7 = false ∧ ∀ b ∈ busy, b.getLsbD 7 = true)

/-- A command that adds no event. -/
theorem ProbedThenSent.of_trace_eq {s t : State} (h : t.trace = s.trace) : ProbedThenSent s t :=
  ⟨[], [], by simp [h], Nat.zero_le _, absurd rfl⟩

/-- Only a refresh adds events: its probe times out, or answers ready and the bursts follow (R91, R94). -/
theorem Ends.probedThenSent {m t : State} {i : Instr} (h : Ends m i t) : ProbedThenSent m t := by
  cases h with
  | refused _ _ => exact .of_trace_eq rfl
  | done _ => exact .of_trace_eq rfl
  | timedOut _ _ =>
    refine ⟨probeAnswers m m.params.pollMax, [], ?_, (length_probeAnswers _ _).le, absurd rfl⟩
    rw [List.map_nil, List.append_nil]
    exact probed_trace m _
  | sent _ q ready bursts =>
    refine ⟨probeAnswers m (q + 1), bursts, ?_, (length_probeAnswers _ _).trans_le ready.1,
      fun _ => ready.probeAnswers_eq⟩
    rw [← probed_trace]
    rfl

/-! ### The statements of the family -/

/-- Settles O18: the step stores one byte, and a read of it is `Memory.read_store`. -/
theorem hostStoreThenReadReturnsTheByte : Obligations.HostStoreThenReadReturnsTheByte := by
  intro s a v rest hh
  refine ⟨Memory.store s.src a.toNat v, ?_, fun b => ?_⟩
  · simp [step, hh, hostStore, hostRest]
  · rw [Memory.read_store]
    cases Memory.read s.src b <;> simp

/-- Settles O52: a command's own writes add no event, and every end probes before it sends. -/
theorem noBurstBeforeReady : Obligations.NoBurstBeforeReady := by
  intro i s t h
  obtain ⟨m, hw, he⟩ := exec_cases h
  have hm : ProbedThenSent m t := he.probedThenSent
  rw [hw.frame] at hm
  exact hm

/-- Settles O56: the reads after stores, on the stores the command sees and on all of them. -/
theorem racingReadsAreOldOrNew : Obligations.RacingReadsAreOldOrNew := by
  refine ⟨fun s during a h => ?_, fun s _ _ _ h => read_racingView_once s h, fun _ _ _ _ h => read_racingView_mem h,
    read_racingView_eq_none, fun s t w before after r rest hh hstep h => ?_⟩
  · exact Memory.read_storeAll_of_ne _ fun q hq => h q (List.mem_filter.1 hq).1
  · rw [src_of_step_command hh hstep]
    exact Memory.read_storeAll_last _ h

/-- Settles O57: an address names one sample, and one component of one image pixel, which lands on one panel pixel. -/
theorem sourceAddressesAreDistinct : Obligations.SourceAddressesAreDistinct := by
  refine ⟨fun s i j h => Nat.add_left_cancel h, ?_⟩
  intro s dx dy ix iy X Y j ix' iy' X' Y' j' h g hj hj' e
  obtain ⟨rfl, rfl, rfl⟩ := imageAddr_inj h.1 g.1 hj hj' e
  obtain ⟨rfl, rfl⟩ := h.target_unique g
  exact ⟨rfl, rfl, rfl, rfl, rfl⟩

/-- Settles O58: DRAWBITMAP on the memory it finds, whose backed bytes are old ones or stored meanwhile. -/
theorem racingDrawbitmapReadsOldOrNew : Obligations.RacingDrawbitmapReadsOldOrNew := by
  intro s during rest hs hh hbacked
  have hdecode : decode 0x060000000000000000000000 = .ok (.drawbitmap false) := by decide
  have hview : ∀ i < s.W * s.H, ∃ b, Admits (racingView during s) (s.srcBase.toNat + i) b := fun i hi =>
    (hbacked i hi).elim fun _ hb => hb.exists_racingView during
  choose! smp hsmp using hview
  obtain ⟨u, hu, hsampled, hexec⟩ :=
    exec_drawbitmap_admitted (s := racingView during { s with host := rest }) { hs.panel with } hsmp false
  obtain ⟨t, ht, hrun⟩ := runCommand_legal (during := during) (s := { s with host := rest }) hdecode
  rw [hexec] at ht
  obtain rfl : u = t := by cases ht; rfl
  refine ⟨_, smp, (step_command hs.not_halted hh).trans hrun, ?_, ?_, fun i hi => read_racingView_mem (hsmp i hi).2⟩
  · rw [retire_frame]
    exact hu.halt.trans hs.not_halted
  · rw [retire_frame]
    exact { hsampled with }

end Sys2Proof.Machine
end

section
/-! The encoding's family of statements: the decode procedure said once, the round trip in both directions, the rows of
the opcode table as masks, the entry of ILLEGAL_COMMAND, and the assembly line of a command. -/

namespace Sys2Proof.Machine

section
variable {w v : CmdWord} {o : Opcode} {i : Instr}

/-! ### The decode procedure (R60) -/

/-- The opcode map read in both directions (R55). -/
theorem opcodeOf_eq_some_iff {op : BitVec 8} : opcodeOf op = some o ↔ op = opcodeValue o := by
  constructor
  · intro h
    apply BitVec.eq_of_toNat_eq
    unfold opcodeOf at h
    split at h <;> cases h <;> assumption
  · rintro rfl
    cases o <;> rfl

/-- The word is a legal word of opcode `o`: `rsv` is zero, the opcode is that of `o`, and so are the must-be-zero
fields of its format (R57, R58). -/
def LegalFor (o : Opcode) (w : CmdWord) : Prop :=
  rsvField w = 0 ∧ opField w = opcodeValue o ∧ mustBeZeroHolds (formatOf o) w = true

/-- Everything the decoder accepts: a legal word of some opcode, with its operands read (R60). -/
theorem decode_eq_ok_iff : decode w = .ok i ↔ ∃ o, LegalFor o w ∧ operandsOf o w = i := by
  simp only [LegalFor, ← opcodeOf_eq_some_iff]
  unfold decode
  split
  next hrsv => exact iff_of_false nofun fun ⟨_, ⟨h, _, _⟩, _⟩ => hrsv h
  next hrsv =>
    split
    next hop => simp [hop]
    next hop => split <;> simp_all

theorem opcode_operandsOf (o : Opcode) (w : CmdWord) : (operandsOf o w).opcode = o := by cases o <;> rfl

/-! ### Both directions of the round trip (R51 to R53) -/

/-- The fixed fields of the word of any command. -/
theorem encodedFields (i : Instr) : Laws.EncodedFields.Statement i := by
  cases i with
  | setpixel x y c s => exact Laws.EncodedFields.setpixel x y c s
  | clear => exact Laws.EncodedFields.clear
  | drawline x0 y0 x1 y1 c s => exact Laws.EncodedFields.drawline x0 y0 x1 y1 c s
  | drawrect x y w h f c s => exact Laws.EncodedFields.drawrect x y w h f c s
  | drawcircle cx cy r f c s => exact Laws.EncodedFields.drawcircle cx cy r f c s
  | drawbitmap s => exact Laws.EncodedFields.drawbitmap s
  | drawimage dx dy s => exact Laws.EncodedFields.drawimage dx dy s
  | setsrc w h base => exact Laws.EncodedFields.setsrc w h base
  | flush => exact Laws.EncodedFields.flush
  | flushdirty => exact Laws.EncodedFields.flushdirty

/-- The word of any command, well-formed or not, is legal for its opcode. -/
theorem legalFor_encode (i : Instr) : LegalFor i.opcode (encode i) := by
  obtain ⟨hop, hrsv, hzero⟩ := encodedFields i
  exact ⟨hrsv, opcodeOf_eq_some_iff.1 hop, hzero⟩

/-- Operands that fit their fields are read back from the word. -/
theorem operandsOf_encode (h : i.wellFormed = true) : operandsOf i.opcode (encode i) = i := by
  cases i <;> simp_all [Instr.wellFormed, Instr.opcode, operandsOf, encode, s16_toS16, u16_toU16, base32_halves]

/-- The operands read from a word fit their fields. -/
theorem wellFormed_operandsOf (o : Opcode) (w : CmdWord) : (operandsOf o w).wellFormed = true := by
  cases o <;> simp [operandsOf, Instr.wellFormed, fitsS16_s16, fitsU16_u16, fitsU32_base32]

/-- A legal word is written again from its operands: the fields that are not operands are the opcode and zeros. -/
theorem encode_operandsOf (h : LegalFor o w) : encode (operandsOf o w) = w := by
  obtain ⟨hrsv, hop, hzero⟩ := h
  conv_rhs => rw [← packWord_fields hrsv, hop]
  cases o <;> simp_all [operandsOf, encode, mustBeZeroHolds, formatOf, opcodeValue, toS16_s16, toU16_u16,
    baseHi_base32, baseLo_base32]

/-! ### The rows of the opcode table (R55) -/

/-- Words that agree on a field and on the field above it agree on both together. -/
theorem extractLsb'_eq_of_parts {lo n m : Nat} (hlo : w.extractLsb' lo n = v.extractLsb' lo n)
    (hhi : w.extractLsb' (lo + n) m = v.extractLsb' (lo + n) m) :
    w.extractLsb' lo (m + n) = v.extractLsb' lo (m + n) := by
  rw [← BitVec.extractLsb'_append_extractLsb'_eq_extractLsb' rfl, hlo, hhi,
    BitVec.extractLsb'_append_extractLsb'_eq_extractLsb' rfl]

/-- A bit is a field of width 1. -/
theorem extractLsb'_one_eq_of_getLsbD {k : Nat} (h : w.getLsbD k = v.getLsbD k) :
    w.extractLsb' k 1 = v.extractLsb' k 1 := by
  apply BitVec.eq_of_getLsbD_eq
  simp [h]

/-- Words are equal field by field (R51). -/
theorem cmdWord_eq_iff : w = v ↔
    rsvField w = rsvField v ∧ opField w = opField v ∧ aField w = aField v ∧ bField w = bField v ∧
      cField w = cField v ∧ dField w = dField v ∧ fBit w = fBit v ∧ cBit w = cBit v ∧ sBit w = sBit v := by
  constructor
  · rintro rfl
    exact ⟨rfl, rfl, rfl, rfl, rfl, rfl, rfl, rfl, rfl⟩
  · rintro ⟨hrsv, hop, ha, hb, hc, hd, hF, hC, hS⟩
    have from_rsv : w.extractLsb' 67 29 = v.extractLsb' 67 29 := extractLsb'_eq_of_parts hrsv hop
    have from_F := extractLsb'_eq_of_parts (extractLsb'_one_eq_of_getLsbD hF) from_rsv
    have from_C := extractLsb'_eq_of_parts (extractLsb'_one_eq_of_getLsbD hC) from_F
    have from_S := extractLsb'_eq_of_parts (extractLsb'_one_eq_of_getLsbD hS) from_C
    have from_a := extractLsb'_eq_of_parts ha from_S
    have from_b := extractLsb'_eq_of_parts hb from_a
    have from_c := extractLsb'_eq_of_parts hc from_b
    have from_d : w.extractLsb' 0 96 = v.extractLsb' 0 96 := extractLsb'_eq_of_parts hd from_c
    rwa [BitVec.extractLsb'_eq_self, BitVec.extractLsb'_eq_self] at from_d

theorem rsvField_and : rsvField (w &&& v) = rsvField w &&& rsvField v := BitVec.extractLsb'_and
theorem opField_and : opField (w &&& v) = opField w &&& opField v := BitVec.extractLsb'_and
theorem aField_and : aField (w &&& v) = aField w &&& aField v := BitVec.extractLsb'_and
theorem bField_and : bField (w &&& v) = bField w &&& bField v := BitVec.extractLsb'_and
theorem cField_and : cField (w &&& v) = cField w &&& cField v := BitVec.extractLsb'_and
theorem dField_and : dField (w &&& v) = dField w &&& dField v := BitVec.extractLsb'_and
theorem fBit_and : fBit (w &&& v) = (fBit w && fBit v) := BitVec.getLsbD_and
theorem cBit_and : cBit (w &&& v) = (cBit w && cBit v) := BitVec.getLsbD_and
theorem sBit_and : sBit (w &&& v) = (sBit w && sBit v) := BitVec.getLsbD_and

/-- Every row fixes all of `rsv`. -/
theorem rsvField_and_tableMask (w : CmdWord) (o : Opcode) : rsvField (w &&& tableMask o) = rsvField w := by
  have h : rsvField (tableMask o) = BitVec.allOnes 21 := by cases o <;> rfl
  rw [rsvField_and, h, BitVec.and_allOnes]

/-- Every row fixes all of `op`. -/
theorem opField_and_tableMask (w : CmdWord) (o : Opcode) : opField (w &&& tableMask o) = opField w := by
  have h : opField (tableMask o) = BitVec.allOnes 8 := by cases o <;> rfl
  rw [opField_and, h, BitVec.and_allOnes]

/-- The match number of a row is its opcode and zeros. -/
theorem tableMatch_eq_packWord (o : Opcode) :
    tableMatch o = packWord (opcodeValue o) false false false 0 0 0 0 := by cases o <;> rfl

/-- The operand fields that a row fixes are the must-be-zero fields of its format (R52, R57). -/
theorem mustBeZeroHolds_iff_masked (o : Opcode) (w : CmdWord) :
    mustBeZeroHolds (formatOf o) w = true ↔
      aField (w &&& tableMask o) = 0 ∧ bField (w &&& tableMask o) = 0 ∧
      cField (w &&& tableMask o) = 0 ∧ dField (w &&& tableMask o) = 0 ∧
      fBit (w &&& tableMask o) = false ∧ cBit (w &&& tableMask o) = false ∧ sBit (w &&& tableMask o) = false := by
  have and_ones (x : BitVec 16) : x &&& 65535#16 = x := BitVec.and_allOnes
  simp only [aField_and, bField_and, cField_and, dField_and, fBit_and, cBit_and, sBit_and]
  cases o <;> simp [formatOf, mustBeZeroHolds, tableMask, aField, bField, cField, dField, fBit, cBit, sBit, and_ones,
    and_assoc]

/-- A word matches a row exactly when it is legal for the row's opcode. -/
theorem matches_row_iff : w &&& tableMask o = tableMatch o ↔ LegalFor o w := by
  rw [LegalFor, mustBeZeroHolds_iff_masked, cmdWord_eq_iff, tableMatch_eq_packWord, rsvField_and_tableMask,
    opField_and_tableMask]
  simp only [rsvField_packWord, opField_packWord, aField_packWord, bField_packWord, cField_packWord, dField_packWord,
    fBit_packWord, cBit_packWord, sBit_packWord]

/-- A word that matches a row decodes (R58). -/
theorem exists_decode_of_matches (h : w &&& tableMask o = tableMatch o) : ∃ i, decode w = .ok i :=
  ⟨_, decode_eq_ok_iff.2 ⟨o, matches_row_iff.1 h, rfl⟩⟩

/-- A word that matches no row is refused (R58). -/
theorem exists_decode_error (h : ∀ o, w &&& tableMask o ≠ tableMatch o) : ∃ e, decode w = .error e := by
  cases hd : decode w with
  | error e => exact ⟨e, rfl⟩
  | ok i =>
    obtain ⟨o, ho, _⟩ := decode_eq_ok_iff.1 hd
    exact absurd (matches_row_iff.2 ho) (h o)

end

/-- FINFO of ILLEGAL_COMMAND is the opcode byte of the word (R103). -/
theorem illegalInfo_opField (w : CmdWord) : illegalInfo (opField w) = BitVec.ofNat 32 (w.toNat / 2 ^ 88) := by
  have := w.isLt
  apply BitVec.eq_of_toNat_eq
  rw [illegalInfo, toNat_append_eq_add, opField, toNat_field, BitVec.toNat_ofNat, BitVec.toNat_ofNat]
  omega

/-! ### The line of a command (R61) -/

theorem asmColour_col (c : Colour) : asmColour (sourceLine.col c) = some c := by cases c <;> rfl

theorem asmSync_syn (s : Bool) : asmSync (sourceLine.syn s) = some s := by cases s <;> rfl

theorem asmFillSync_fil_syn (f : Fill) (s : Bool) :
    asmFillSync (sourceLine.fil f ++ sourceLine.syn s) = some (f, s) := by
  cases f <;> cases s <;> rfl

/-- The line of a command stands for that command, whether its operands fit or not. -/
theorem asmInstr_sourceLine (i : Instr) : asmInstr (sourceLine i).1 (sourceLine i).2 = some i := by
  cases i <;> simp [sourceLine, asmInstr, asmColour_col, asmSync_syn, asmFillSync_fil_syn]

/-! ### The statements of the family -/

/-- Settles O2: the word is legal for the command's opcode, and the operands are read back. -/
theorem encodeThenDecode : Obligations.EncodeThenDecode := fun i h =>
  decode_eq_ok_iff.2 ⟨i.opcode, legalFor_encode i, operandsOf_encode h⟩

/-- Settles O3: the decoder accepts legal words only, which are written again from their operands. -/
theorem decodeThenEncode : Obligations.DecodeThenEncode := by
  intro w i h
  obtain ⟨o, ho, rfl⟩ := decode_eq_ok_iff.1 h
  exact ⟨encode_operandsOf ho, wellFormed_operandsOf o w⟩

/-- Settles O4: matching a row and decoding to its opcode are both the legality of the word for that opcode. -/
theorem decodesExactlyTheTableRows : Obligations.DecodesExactlyTheTableRows := by
  intro w o
  rw [matches_row_iff]
  constructor
  · rintro ⟨i, hd, rfl⟩
    obtain ⟨o, ho, rfl⟩ := decode_eq_ok_iff.1 hd
    rwa [opcode_operandsOf]
  · intro ho
    exact ⟨operandsOf o w, decode_eq_ok_iff.2 ⟨o, ho, rfl⟩, opcode_operandsOf o w⟩

/-- Settles O5: a word that matches no row is refused by the decoder, and the step is the fault's entry. -/
theorem illegalWordRaisesIllegalCommand : Obligations.IllegalWordRaisesIllegalCommand := by
  refine ⟨?_, fun w o => exists_decode_of_matches, fun o => ?_, fun o => ?_⟩
  · intro s w during rest hs hh hrow
    obtain ⟨e, he⟩ := exists_decode_error hrow
    rw [step_command hs hh, runCommand_illegal he, illegalCommand, illegalInfo_opField]
    rfl
  · cases o <;> decide
  · cases o <;> decide

/-- Settles O6: the line stands for the command, and the assembler checks its operands. -/
theorem assemblyLineIsOneWordOrError : Obligations.AssemblyLineIsOneWordOrError := by
  intro i
  rw [assemble, asmInstr_sourceLine, Option.bind_some]

/-- Settles O1: eleven fixed lines and words, evaluated. -/
theorem specExamplesAssembleAndDecode : Obligations.SpecExamplesAssembleAndDecode := by
  unfold Obligations.SpecExamplesAssembleAndDecode
  decide

end Sys2Proof.Machine
end

section
/-! The framebuffer's family of statements: SETPIXEL and the algebra of `SetPixel`, CLEAR, and what a FLUSH sends last. -/

namespace Sys2Proof.Machine

/-! ### Changing one byte (R64) -/

section
variable {k k' : Nat} {s : State}

/-- Byte `k` of the framebuffer, if there is one, replaced by its image under `f`, and marked dirty. -/
def modifyByte (k : Nat) (f : Byte → Byte) (s : State) : State :=
  { s with fb := s.fb.modify k f, dirty := s.dirty.set k true }

/-- Writing a byte computed from the old one is modifying it, whether or not the framebuffer has a byte `k`. -/
theorem writeByte_fbAt (k : Nat) (f : Byte → Byte) (s : State) :
    writeByte k (f (fbAt s k)) s = modifyByte k f s := by
  rw [modifyByte, List.modify_eq_set, ← List.getD_eq_getElem?_getD]
  rfl

theorem modifyByte_modifyByte_same (k : Nat) (f g : Byte → Byte) (s : State) :
    modifyByte k g (modifyByte k f s) = modifyByte k (g ∘ f) s := by
  simp [modifyByte, List.modify_modify_eq]

theorem modifyByte_modifyByte_ne (h : k ≠ k') (f g : Byte → Byte) :
    modifyByte k' g (modifyByte k f s) = modifyByte k f (modifyByte k' g s) := by
  simp [modifyByte, List.modify_modify_ne _ _ _ h, List.set_comm _ _ h]

end

/-! ### Painting a pixel of a byte (R65) -/

/-- Painting a bit a second time changes nothing. -/
theorem paintByte_paintByte (c : Colour) (m old : Byte) : paintByte c m (paintByte c m old) = paintByte c m old := by
  cases c
  · simp [paintByte, BitVec.and_assoc]
  · simp [paintByte, BitVec.or_assoc]

/-- Painting two bits of a byte commutes in one colour, and at two different bits. -/
theorem paintByte_comm {c d : Colour} {y y' : Nat} (h : d = c ∨ y % 8 ≠ y' % 8) (old : Byte) :
    paintByte d (bitMask y') (paintByte c (bitMask y) old) = paintByte c (bitMask y) (paintByte d (bitMask y') old) := by
  refine BitVec.eq_of_getLsbD_eq fun j hj => ?_
  simp only [getLsbD_paintByte _ _ _ _ hj]
  obtain rfl | hne := h
  · split <;> split <;> rfl
  · by_cases hy : j = y % 8
    · have hy' : ¬j = y' % 8 := fun e => hne (hy.symm.trans e)
      simp only [if_neg hy']
    · simp only [if_neg hy]

/-! ### The algebra of `SetPixel` (R65) -/

section
variable {c d : Colour} {x y x' y' : Int} {s t : State}

theorem setPixel_of_off (h : onPanel s x y = false) : setPixel c x y s = s := by simp [setPixel, h]

theorem setPixel_of_on (h : onPanel s x y = true) :
    setPixel c x y s = modifyByte (byteIndex s x.toNat y.toNat) (paintByte c (bitMask y.toNat)) s := by
  simp [setPixel, h, writeByte_fbAt]

theorem Repainted.onPanel_eq (h : Repainted s t) (x y : Int) : onPanel t x y = onPanel s x y := by
  rw [onPanel, h.W, h.H]; rfl

theorem Repainted.byteIndex_eq (h : Repainted s t) (x y : Nat) : byteIndex t x y = byteIndex s x y := by
  rw [byteIndex, h.W]; rfl

/-- `SetPixel` on the panel after a repainting modifies the byte that the pixel had before it. -/
theorem Repainted.setPixel_of_on (h : Repainted s t) (ho : onPanel s x y = true) :
    setPixel c x y t = modifyByte (byteIndex s x.toNat y.toNat) (paintByte c (bitMask y.toNat)) t := by
  rw [Machine.setPixel_of_on ((h.onPanel_eq x y).trans ho), h.byteIndex_eq]

/-- Different pixels of the panel that lie in one byte are different bits of it (R19). -/
theorem bit_ne_of_byteIndex_eq (h : onPanel s x y = true) (h' : onPanel s x' y' = true) (hne : (x, y) ≠ (x', y'))
    (hk : byteIndex s x.toNat y.toNat = byteIndex s x'.toNat y'.toNat) : y.toNat % 8 ≠ y'.toNat % 8 := by
  rw [onPanel_iff] at h h'
  obtain ⟨hx, hpage⟩ := byteIndex_inj (by omega) (by omega) hk
  intro hbit
  exact hne (Prod.ext (by omega) (by omega))

/-- `SetPixel` is idempotent (R65 (b)). -/
theorem setPixel_setPixel (c : Colour) (x y : Int) (s : State) : setPixel c x y (setPixel c x y s) = setPixel c x y s := by
  cases ho : onPanel s x y with
  | false => simp only [setPixel_of_off ho]
  | true =>
    rw [(setPixel_repainted c x y s).setPixel_of_on ho, setPixel_of_on ho, modifyByte_modifyByte_same]
    congr 1
    exact funext (paintByte_paintByte c _)

/-- Two `SetPixel` commute in one colour, and on different pixels (R65 (c)): in different bytes as two modifications of
the framebuffer, in one byte as two paintings of it. -/
theorem setPixel_comm (h : d = c ∨ (x, y) ≠ (x', y')) :
    setPixel d x' y' (setPixel c x y s) = setPixel c x y (setPixel d x' y' s) := by
  have hr := setPixel_repainted c x y s
  have hr' := setPixel_repainted d x' y' s
  cases ho : onPanel s x y with
  | false => rw [setPixel_of_off ho, setPixel_of_off ((hr'.onPanel_eq x y).trans ho)]
  | true =>
    cases ho' : onPanel s x' y' with
    | false => rw [setPixel_of_off ho', setPixel_of_off ((hr.onPanel_eq x' y').trans ho')]
    | true =>
      rw [hr.setPixel_of_on ho', hr'.setPixel_of_on ho, setPixel_of_on ho, setPixel_of_on ho']
      by_cases hk : byteIndex s x.toNat y.toNat = byteIndex s x'.toNat y'.toNat
      · rw [← hk, modifyByte_modifyByte_same, modifyByte_modifyByte_same]
        congr 1
        exact funext (paintByte_comm (h.imp_right fun hne => bit_ne_of_byteIndex_eq ho ho' hne hk))
      · exact modifyByte_modifyByte_ne hk _ _

end

/-! ### What a FLUSH sends last (R91) -/

/-- A refresh that does not halt has found the device ready, sent its bursts and emptied the dirty set. -/
theorem RefreshEnds.sent_of_not_halted {s : State} {bursts : List (List Byte)} {r : Flow} (h : RefreshEnds s bursts r)
    (hh : r.state.halt = false) :
    ∃ q, ReadyAt s q ∧ r = .go (clearDirty (transmit bursts (probed s (q + 1)))) := by
  cases h with
  | timedOut _ => exact absurd hh (by simp [Flow.state])
  | sent q ready => exact ⟨q, ready, rfl⟩

/-- A FLUSH that completes ends with the data burst of the whole framebuffer. -/
theorem getLast?_trace_of_flush {s t : State} (h : exec .flush s = .next t) (hh : t.halt = false) :
    t.trace.getLast? = some (.tx s.cfgAddr (dataBurst ((List.range s.L).map (fbAt s)))) := by
  obtain rfl : (fullRefresh s).state = t := by cases h; rfl
  obtain ⟨q, _, e⟩ := (fullRefresh_ends s).sent_of_not_halted hh
  rw [e, Flow.state, clearDirty_trace, transmit_trace, fullBursts, List.map_append, ← List.append_assoc, List.map_singleton,
    List.getLast?_concat]
  rfl

/-- Every byte of a cleared framebuffer is zero (R67). -/
@[simp] theorem fbAt_zeroFramebuffer (s : State) (k : Nat) : fbAt (zeroFramebuffer s) k = 0 := by
  simp only [fbAt, zeroFramebuffer_fb, List.getD_eq_getElem?_getD, List.getElem?_replicate]
  split <;> rfl

/-! ### The statements of the family -/

/-- Settles O20: `setPixel_drawn` on the panel of an accepting state. -/
theorem setpixelDrawsThePixel : Obligations.SetpixelDrawsThePixel := by
  intro s x y c hs
  refine ⟨_, _, ?_, setPixel_drawn c x y hs.panel⟩
  rw [← (setPixel_repainted c x y s).frame]
  rfl

/-- Settles O22: `setPixel_setPixel`, and `setPixel_comm` for both commutations. -/
theorem setPixelIdempotentAndCommuting : Obligations.SetPixelIdempotentAndCommuting := fun s c _ x y _ _ =>
  ⟨setPixel_setPixel c x y s, setPixel_comm (.inl rfl), fun hne => setPixel_comm (.inr hne)⟩

/-- Settles O50: the flush sends the framebuffer last, and CLEAR has made each of its bytes zero. -/
theorem clearThenFlushSendsZeros : Obligations.ClearThenFlushSendsZeros := by
  intro s t u hclear hflush hh
  obtain rfl : zeroFramebuffer s = t := by cases hclear; rfl
  have hzero : (List.range s.L).map (fbAt (zeroFramebuffer s)) = List.replicate s.L 0 := by
    rw [List.map_congr_left fun k _ => fbAt_zeroFramebuffer s k, List.map_const', List.length_range]
  rw [getLast?_trace_of_flush hflush hh, zeroFramebuffer_L, hzero]
  rfl

/-- Settles O21: the panel test of `SetPixel` fails, so the state is answered as it is. -/
theorem setpixelOffPanelChangesNothing : Obligations.SetpixelOffPanelChangesNothing := by
  intro s x y c hoff
  have ho : onPanel s x y = false := by
    rw [Bool.eq_false_iff, ne_eq, onPanel_iff]
    omega
  rw [exec, execSetpixel, setPixel_of_off ho]
  rfl

/-- Settles O23: CLEAR is `zeroFramebuffer`. -/
theorem clearZeroFillsOnly : Obligations.ClearZeroFillsOnly := fun _ => rfl

end Sys2Proof.Machine
end

section
/-! The rasterizer's family of statements, lines: the Bresenham loop, its closed form and the properties of R71. -/

namespace Sys2Proof.Machine

/-! ### Steps along the minor axis (R71) -/

section
variable {n m i : Nat}

/-- The offset that rounds the slope is less than a whole step. -/
theorem roundingOffset_div (n : Nat) : (n - 1 - n / 2) / n = 0 := Nat.div_eq_zero_iff.2 (by omega)

theorem minorSteps_start (n m : Nat) : minorSteps n m 0 = 0 := by simp [minorSteps, roundingOffset_div]

/-- A difference of 0 makes no step. -/
theorem minorSteps_none (n i : Nat) : minorSteps n 0 i = 0 := by simp [minorSteps, roundingOffset_div]

/-- A minor difference equal to the major one makes a step with every major step. -/
theorem minorSteps_self (hi : i ≤ n) : minorSteps n n i = i := by
  obtain rfl | hn := Nat.eq_zero_or_pos n
  · rw [Nat.le_zero.1 hi, minorSteps_start]
  · rw [minorSteps, Nat.mul_comm, Nat.mul_add_div hn, roundingOffset_div, Nat.add_zero]

/-- All the minor steps have been made after all the major ones. -/
theorem minorSteps_end (hm : m ≤ n) : minorSteps n m n = m := by
  obtain rfl | hn := Nat.eq_zero_or_pos n
  · rw [minorSteps_start, Nat.le_zero.1 hm]
  · rw [minorSteps, Nat.mul_add_div hn, roundingOffset_div, Nat.add_zero]

/-- `minorSteps` is the quotient of a division with remainder. -/
theorem minorSteps_bounds (hn : 0 < n) (m i : Nat) :
    minorSteps n m i * n ≤ i * m + (n - 1 - n / 2) ∧ i * m + (n - 1 - n / 2) < minorSteps n m i * n + n :=
  ⟨Nat.div_mul_le_self _ _, Nat.lt_div_mul_add hn⟩

/-- One more major step makes at most one minor step, and does so when the loop's error term says so (R70). -/
theorem minorSteps_succ (hm : m ≤ n) (hn : 0 < n) :
    minorSteps n m (i + 1) = minorSteps n m i + if minorSteps n m i * n + n / 2 < i * m + m then 1 else 0 := by
  obtain ⟨hlo, hhi⟩ := minorSteps_bounds hn m i
  rw [minorSteps, Nat.succ_mul]
  refine Nat.div_eq_of_lt_le ?_ ?_ <;> split <;> simp only [Nat.add_mul, Nat.one_mul, Nat.add_zero] <;> omega

theorem minorSteps_succ_cases (hm : m ≤ n) (hn : 0 < n) (i : Nat) :
    minorSteps n m (i + 1) = minorSteps n m i ∨ minorSteps n m (i + 1) = minorSteps n m i + 1 := by
  rw [minorSteps_succ hm hn]
  split
  · exact .inr rfl
  · exact .inl rfl

end

/-! ### The Bresenham loop (R70) -/

/-- The loop treats the two axes alike: with the axes exchanged the error term changes its sign. -/
theorem lineLoop_swap (dx dy sx sy x1 y1 : Int) : ∀ (fuel : Nat) (x y err : Int),
    lineLoop dx dy sx sy x1 y1 fuel x y err = (lineLoop dy dx sy sx y1 x1 fuel y x (-err)).map Prod.swap
  | 0, _, _, _ => rfl
  | fuel + 1, x, y, err => by
    rw [lineLoop, lineLoop]
    by_cases hend : x = x1 ∧ y = y1
    · rw [if_pos hend, if_pos hend.symm]; rfl
    · rw [if_neg hend, if_neg fun h => hend h.symm]
      simp only [List.map_cons, Prod.swap_prod_mk, lineLoop_swap dx dy sx sy x1 y1 fuel, gt_iff_lt, neg_lt_neg_iff,
        decide_eq_true_eq, neg_lt]
      congr 4
      split <;> split <;> ring

/-- The loop with the x axis as the major one, after `i` of its `n` steps: it plots the rest of the closed form. The
error term holds the distance of the point from the exact line. -/
theorem lineLoop_major {n m : Nat} (hm : m ≤ n) (x0 y0 sy : Int) {sx : Int} (hs : sx ≠ 0) : ∀ k i : Nat, i + k = n →
    lineLoop n m sx sy (x0 + sx * n) (y0 + sy * m) (k + 1) (x0 + sx * i) (y0 + sy * minorSteps n m i)
        ((n / 2 : Nat) - i * m + minorSteps n m i * n) =
      (List.range' i (k + 1)).map fun (j : Nat) => (x0 + sx * j, y0 + sy * minorSteps n m j)
  | 0, i, hi => by
    obtain rfl : i = n := hi
    simp [lineLoop, minorSteps_end hm]
  | k + 1, i, hi => by
    have hn : 0 < n := by omega
    have hend : ¬(x0 + sx * i = x0 + sx * n ∧ y0 + sy * minorSteps n m i = y0 + sy * m) := by
      rintro ⟨h, -⟩
      have := Int.eq_of_mul_eq_mul_left hs (Int.add_left_cancel h)
      omega
    obtain ⟨hlo, hhi⟩ := minorSteps_bounds hn m i
    have hstep := minorSteps_succ (i := i) hm hn
    have herr : ((n / 2 : Nat) : Int) - i * m + minorSteps n m i * n =
        (n / 2 : Nat) + (minorSteps n m i * n : Nat) - (i * m : Nat) := by
      push_cast; ring
    have hx : ((n / 2 : Nat) : Int) - i * m + minorSteps n m i * n > -n := by rw [herr]; omega
    have hy : ((n / 2 : Nat) : Int) - i * m + minorSteps n m i * n < m ↔
        minorSteps n m i * n + n / 2 < i * m + m := by
      rw [herr]; omega
    rw [lineLoop, if_neg hend, List.range'_succ, List.map_cons,
      ← lineLoop_major hm x0 y0 sy hs k (i + 1) (by omega), hstep]
    simp only [hx, hy, decide_true, if_true, decide_eq_true_eq]
    congr 2
    · push_cast; ring
    · split <;> push_cast <;> ring
    · split <;> push_cast <;> ring

/-! ### The closed form, one axis at a time -/

/-- The coordinate after `i` of `n` steps from `p` to `q`: on either axis of a line the closed form has this shape. -/
def alongAxis (p q : Int) (n i : Nat) : Int := p + stepSign p q * (minorSteps n (absDiff p q) i : Nat)

section
variable {p q : Int} {n i : Nat}

theorem stepSign_cases (p q : Int) : p < q ∧ stepSign p q = 1 ∨ q ≤ p ∧ stepSign p q = -1 := by
  unfold stepSign
  split <;> omega

theorem stepSign_ne_zero (p q : Int) : stepSign p q ≠ 0 := by
  obtain ⟨_, h⟩ | ⟨_, h⟩ := stepSign_cases p q <;> omega

/-- The steps from `p` to `q` lead to `q`. -/
theorem add_stepSign_mul_absDiff (p q : Int) : p + stepSign p q * absDiff p q = q := by
  obtain ⟨_, h⟩ | ⟨_, h⟩ := stepSign_cases p q <;> rw [h, absDiff] <;> omega

theorem alongAxis_start (p q : Int) (n : Nat) : alongAxis p q n 0 = p := by simp [alongAxis, minorSteps_start]

theorem alongAxis_end (h : absDiff p q ≤ n) : alongAxis p q n n = q := by
  rw [alongAxis, minorSteps_end h, add_stepSign_mul_absDiff]

/-- On the longer axis every step moves by one. -/
theorem alongAxis_major (h : absDiff p q = n) (hi : i ≤ n) : alongAxis p q n i = p + stepSign p q * i := by
  rw [alongAxis, h, minorSteps_self hi]

/-- On an axis whose two ends agree no step moves. -/
theorem alongAxis_self (p : Int) (n i : Nat) : alongAxis p p n i = p := by
  simp [alongAxis, absDiff, minorSteps_none]

theorem natAbs_alongAxis_succ_le (h : absDiff p q ≤ n) (hi : i < n) :
    (alongAxis p q n (i + 1) - alongAxis p q n i).natAbs ≤ 1 := by
  obtain ⟨_, hs⟩ | ⟨_, hs⟩ := stepSign_cases p q <;>
    obtain hm | hm := minorSteps_succ_cases h (by omega) i <;> rw [alongAxis, alongAxis, hs, hm] <;> omega

theorem natAbs_alongAxis_succ_major (h : absDiff p q = n) (hi : i < n) :
    (alongAxis p q n (i + 1) - alongAxis p q n i).natAbs = 1 := by
  rw [alongAxis_major h hi, alongAxis_major h hi.le]
  obtain ⟨_, hs⟩ | ⟨_, hs⟩ := stepSign_cases p q <;> rw [hs] <;> omega

/-- On the longer axis no coordinate comes twice. -/
theorem alongAxis_major_inj {j : Nat} (h : absDiff p q = n) (hi : i ≤ n) (hj : j ≤ n)
    (e : alongAxis p q n i = alongAxis p q n j) : i = j := by
  rw [alongAxis_major h hi, alongAxis_major h hj] at e
  exact Int.ofNat_inj.1 (Int.eq_of_mul_eq_mul_left (stepSign_ne_zero p q) (Int.add_left_cancel e))

/-- The longer axis visits exactly the coordinates between its ends. -/
theorem exists_add_stepSign_mul_iff (p q z : Int) :
    (∃ i : Nat, i ≤ absDiff p q ∧ p + stepSign p q * i = z) ↔ min p q ≤ z ∧ z ≤ max p q := by
  constructor
  · rintro ⟨i, hi, rfl⟩
    obtain ⟨_, hs⟩ | ⟨_, hs⟩ := stepSign_cases p q <;> rw [hs] <;> rw [absDiff] at hi <;> omega
  · intro hz
    refine ⟨absDiff p z, ?_, ?_⟩
    · rw [absDiff, absDiff]; omega
    · obtain ⟨_, hs⟩ | ⟨_, hs⟩ := stepSign_cases p q <;> rw [hs, absDiff] <;> omega

end

/-- How many steps a line makes. -/
def lineSteps (x0 y0 x1 y1 : Int) : Nat := max (absDiff x0 x1) (absDiff y0 y1)

section
variable {x0 y0 x1 y1 : Int}

/-- The closed form with both axes in one shape. -/
theorem lineClosedForm_eq (x0 y0 x1 y1 : Int) :
    lineClosedForm x0 y0 x1 y1 = (List.range (lineSteps x0 y0 x1 y1 + 1)).map fun i =>
      (alongAxis x0 x1 (lineSteps x0 y0 x1 y1) i, alongAxis y0 y1 (lineSteps x0 y0 x1 y1) i) := by
  refine List.map_congr_left fun i hi => ?_
  have hi : i ≤ lineSteps x0 y0 x1 y1 := Nat.lt_succ_iff.1 (List.mem_range.1 hi)
  split
  · next h =>
    have hn : absDiff x0 x1 = lineSteps x0 y0 x1 y1 := (Nat.max_eq_left h.le).symm
    rw [alongAxis_major hn hi, hn]; rfl
  · next h =>
    have hn : absDiff y0 y1 = lineSteps x0 y0 x1 y1 := (Nat.max_eq_right (Nat.le_of_not_lt h)).symm
    rw [alongAxis_major hn hi, hn]; rfl

theorem length_lineClosedForm (x0 y0 x1 y1 : Int) :
    (lineClosedForm x0 y0 x1 y1).length = lineSteps x0 y0 x1 y1 + 1 := by simp [lineClosedForm_eq]

theorem lineClosedForm_getElem?_eq_some_iff {i : Nat} {p : Int × Int} : (lineClosedForm x0 y0 x1 y1)[i]? = some p ↔
    i ≤ lineSteps x0 y0 x1 y1 ∧
      (alongAxis x0 x1 (lineSteps x0 y0 x1 y1) i, alongAxis y0 y1 (lineSteps x0 y0 x1 y1) i) = p := by
  rw [lineClosedForm_eq, List.getElem?_map, Option.map_eq_some_iff]
  simp [List.getElem?_eq_some_iff, and_assoc]

theorem mem_lineClosedForm_iff {X Y : Int} : (X, Y) ∈ lineClosedForm x0 y0 x1 y1 ↔ ∃ i ≤ lineSteps x0 y0 x1 y1,
    alongAxis x0 x1 (lineSteps x0 y0 x1 y1) i = X ∧ alongAxis y0 y1 (lineSteps x0 y0 x1 y1) i = Y := by
  simp [lineClosedForm_eq]

theorem absDiff_x_le_lineSteps (x0 y0 x1 y1 : Int) : absDiff x0 x1 ≤ lineSteps x0 y0 x1 y1 := Nat.le_max_left _ _

theorem absDiff_y_le_lineSteps (x0 y0 x1 y1 : Int) : absDiff y0 y1 ≤ lineSteps x0 y0 x1 y1 := Nat.le_max_right _ _

/-- One axis is as long as the line. -/
theorem lineSteps_eq_or (x0 y0 x1 y1 : Int) :
    absDiff x0 x1 = lineSteps x0 y0 x1 y1 ∨ absDiff y0 y1 = lineSteps x0 y0 x1 y1 :=
  (max_choice _ _).imp Eq.symm Eq.symm

/-- The plotted points are distinct: the longer axis tells them apart (R71 (c)). -/
theorem nodup_lineClosedForm (x0 y0 x1 y1 : Int) : (lineClosedForm x0 y0 x1 y1).Nodup := by
  rw [lineClosedForm_eq]
  refine List.Nodup.map_on (fun i hi j hj e => ?_) List.nodup_range
  have hi := Nat.lt_succ_iff.1 (List.mem_range.1 hi)
  have hj := Nat.lt_succ_iff.1 (List.mem_range.1 hj)
  obtain ⟨ex, ey⟩ := Prod.mk.inj e
  obtain h | h := lineSteps_eq_or x0 y0 x1 y1
  · exact alongAxis_major_inj h hi hj ex
  · exact alongAxis_major_inj h hi hj ey

/-- The closed form treats the two axes alike. -/
theorem map_swap_lineClosedForm (x0 y0 x1 y1 : Int) :
    (lineClosedForm x0 y0 x1 y1).map Prod.swap = lineClosedForm y0 x0 y1 x1 := by
  have hn : lineSteps y0 x0 y1 x1 = lineSteps x0 y0 x1 y1 := Nat.max_comm _ _
  rw [lineClosedForm_eq, lineClosedForm_eq, List.map_map, hn]
  rfl

/-- The loop from its start, with the x axis as the major one, plots the closed form. -/
theorem lineLoop_start (h : absDiff y0 y1 ≤ absDiff x0 x1) :
    lineLoop (absDiff x0 x1) (absDiff y0 y1) (stepSign x0 x1) (stepSign y0 y1) x1 y1 (absDiff x0 x1 + 1) x0 y0
      (absDiff x0 x1 / 2 : Nat) = lineClosedForm x0 y0 x1 y1 := by
  have hn : lineSteps x0 y0 x1 y1 = absDiff x0 x1 := Nat.max_eq_left h
  have hloop := lineLoop_major h x0 y0 (stepSign y0 y1) (stepSign_ne_zero x0 x1) (absDiff x0 x1) 0 (Nat.zero_add _)
  rw [add_stepSign_mul_absDiff, add_stepSign_mul_absDiff, minorSteps_start, ← List.range_eq_range'] at hloop
  rw [lineClosedForm_eq, hn]
  refine Eq.trans (by simp) (hloop.trans (List.map_congr_left fun i hi => ?_))
  rw [alongAxis_major rfl (Nat.lt_succ_iff.1 (List.mem_range.1 hi))]
  rfl

end

/-! ### The statements on lines -/

/-- Settles O25: `lineLoop_start` on the longer axis, with the axes exchanged where that is the y axis. -/
theorem lineLoopEqualsClosedForm : Obligations.LineLoopEqualsClosedForm := by
  intro x0 y0 x1 y1
  rw [linePoints]
  by_cases h : absDiff x0 x1 > absDiff y0 y1
  · have herr : lineErr0 (absDiff x0 x1) (absDiff y0 y1) = (absDiff x0 x1 / 2 : Nat) := by
      rw [lineErr0, if_pos (by omega), tdiv2, if_pos (by omega)]; rfl
    simp only [herr, Nat.max_eq_left h.le]
    exact lineLoop_start h.le
  · have hle := Nat.le_of_not_lt h
    have herr : -lineErr0 (absDiff x0 x1) (absDiff y0 y1) = (absDiff y0 y1 / 2 : Nat) := by
      rw [lineErr0, if_neg (by omega), tdiv2]; split <;> omega
    simp only [lineLoop_swap (absDiff x0 x1), herr, Nat.max_eq_right hle]
    rw [lineLoop_start hle, map_swap_lineClosedForm]

/-- Settles O26: the same facts of the closed form, one axis at a time. -/
theorem linePlotsItsEndpointsStepByStep : Obligations.LinePlotsItsEndpointsStepByStep := by
  intro x0 y0 x1 y1
  rw [lineLoopEqualsClosedForm]
  have hdx := absDiff_x_le_lineSteps x0 y0 x1 y1
  have hdy := absDiff_y_le_lineSteps x0 y0 x1 y1
  refine ⟨length_lineClosedForm x0 y0 x1 y1, ?_, ?_, nodup_lineClosedForm x0 y0 x1 y1, fun i p q hp hq => ?_⟩
  · rw [List.head?_eq_getElem?, lineClosedForm_getElem?_eq_some_iff]
    exact ⟨Nat.zero_le _, by rw [alongAxis_start, alongAxis_start]⟩
  · rw [List.getLast?_eq_getElem?, length_lineClosedForm, lineClosedForm_getElem?_eq_some_iff]
    exact ⟨le_rfl, by rw [Nat.add_sub_cancel, alongAxis_end hdx, alongAxis_end hdy]⟩
  · obtain ⟨-, rfl⟩ := lineClosedForm_getElem?_eq_some_iff.1 hp
    obtain ⟨hi, rfl⟩ := lineClosedForm_getElem?_eq_some_iff.1 hq
    exact ⟨natAbs_alongAxis_succ_le hdx hi, natAbs_alongAxis_succ_le hdy hi,
      fun h => natAbs_alongAxis_succ_major (Nat.max_eq_left h.le).symm hi,
      fun h => natAbs_alongAxis_succ_major (Nat.max_eq_right h).symm hi⟩

theorem mem_horizontalLine_iff {x0 x1 y X Y : Int} :
    (X, Y) ∈ linePoints x0 y x1 y ↔ Y = y ∧ min x0 x1 ≤ X ∧ X ≤ max x0 x1 := by
  have hn : absDiff x0 x1 = lineSteps x0 y x1 y := by simp [lineSteps, absDiff]
  rw [lineLoopEqualsClosedForm, mem_lineClosedForm_iff, ← exists_add_stepSign_mul_iff, hn]
  constructor
  · rintro ⟨i, hi, hx, hy⟩
    exact ⟨hy.symm.trans (alongAxis_self y _ i), i, hi, (alongAxis_major hn hi).symm.trans hx⟩
  · rintro ⟨rfl, i, hi, hx⟩
    exact ⟨i, hi, (alongAxis_major hn hi).trans hx, alongAxis_self _ _ i⟩

theorem mem_verticalLine_iff {x y0 y1 X Y : Int} :
    (X, Y) ∈ linePoints x y0 x y1 ↔ X = x ∧ min y0 y1 ≤ Y ∧ Y ≤ max y0 y1 := by
  rw [← mem_horizontalLine_iff, lineLoopEqualsClosedForm, lineLoopEqualsClosedForm, ← map_swap_lineClosedForm y0 x y1 x,
    List.mem_map_swap]

/-- A line with equal differences on both axes moves on both with every step, in the direction `e` of its slope. -/
theorem mem_diagonalLine_iff {x0 y0 n e X Y : Int} (he : e = 1 ∨ e = -1) :
    (X, Y) ∈ linePoints x0 y0 (x0 + n) (y0 + e * n) ↔
      Y - y0 = e * (X - x0) ∧ min 0 n ≤ X - x0 ∧ X - x0 ≤ max 0 n := by
  have hxy : absDiff y0 (y0 + e * n) = absDiff x0 (x0 + n) := by
    obtain rfl | rfl := he <;> rw [absDiff, absDiff] <;> omega
  have hx : absDiff x0 (x0 + n) = lineSteps x0 y0 (x0 + n) (y0 + e * n) := by rw [lineSteps, hxy, max_self]
  have hslope : ∀ i : Nat, i ≤ absDiff x0 (x0 + n) →
      stepSign y0 (y0 + e * n) * i = e * (stepSign x0 (x0 + n) * i) := by
    intro i hi
    rw [absDiff] at hi
    obtain rfl | rfl := he <;> obtain ⟨_, hs⟩ | ⟨_, hs⟩ := stepSign_cases x0 (x0 + n) <;>
      obtain ⟨_, hs'⟩ | ⟨_, hs'⟩ := stepSign_cases y0 _ <;> rw [hs, hs'] <;> omega
  have hband : (min 0 n ≤ X - x0 ∧ X - x0 ≤ max 0 n) ↔ min x0 (x0 + n) ≤ X ∧ X ≤ max x0 (x0 + n) := by omega
  rw [lineLoopEqualsClosedForm, mem_lineClosedForm_iff, hband, ← exists_add_stepSign_mul_iff, ← hx]
  constructor
  · rintro ⟨i, hi, rfl, rfl⟩
    rw [alongAxis_major rfl hi, alongAxis_major hxy hi, hslope i hi]
    exact ⟨by ring, i, hi, rfl⟩
  · rintro ⟨hY, i, hi, rfl⟩
    refine ⟨i, hi, alongAxis_major rfl hi, ?_⟩
    rw [alongAxis_major hxy hi, hslope i hi]
    linear_combination -hY

/-- Settles O27: the longer axis visits every coordinate between its ends; the other stands still or moves with it. -/
theorem straightLinesPlotEveryPointBetween : Obligations.StraightLinesPlotEveryPointBetween := by
  refine ⟨fun _ _ _ _ _ => mem_horizontalLine_iff, fun _ _ _ _ _ => mem_verticalLine_iff,
    fun x0 y0 n X Y => ⟨?_, ?_⟩⟩
  · have h := mem_diagonalLine_iff (x0 := x0) (y0 := y0) (n := n) (X := X) (Y := Y) (.inl rfl)
    rw [one_mul] at h
    exact h.trans (by omega)
  · have h := mem_diagonalLine_iff (x0 := x0) (y0 := y0) (n := n) (X := X) (Y := Y) (.inr rfl)
    rw [neg_one_mul, ← sub_eq_add_neg] at h
    exact h.trans (by omega)

end Sys2Proof.Machine
end

section
/-! The rasterizer's family of statements, the circle walk: the midpoint algorithm emits the octant nearest to the
circle (R77). -/

namespace Sys2Proof.Machine

/-- The column `x` is the integer nearest to `sqrt(r*r - y*y)`: the circle of radius `r` crosses row `y` between
`x - 1/2` and `x + 1/2`. -/
def NearestColumn (r x y : Int) : Prop := x * x - x + y * y < r * r ∧ r * r ≤ x * x + x + y * y

section
variable {r x y d X Y : Int}

/-- The intervals around two different columns do not meet. -/
theorem mul_self_add_le_of_lt (hx : 0 ≤ x) (h : x < X) : x * x + x ≤ X * X - X := by nlinarith

/-- A row has at most one nearest column. -/
theorem NearestColumn.unique (h : NearestColumn r x y) (h' : NearestColumn r X y) (hx : 0 ≤ x) (hX : 0 ≤ X) : X = x := by
  obtain ⟨h1, h2⟩ := h
  obtain ⟨h3, h4⟩ := h'
  obtain hlt | rfl | hlt := lt_trichotomy x X
  · have := mul_self_add_le_of_lt hx hlt; omega
  · rfl
  · have := mul_self_add_le_of_lt hX hlt; omega

/-- A point of the octant whose row lies above the radius is not near the circle. -/
theorem not_nearestColumn_of_lt (hr : 0 ≤ r) (hY : r < Y) (hX : Y ≤ X) : ¬NearestColumn r X Y := by
  rintro ⟨h, -⟩
  nlinarith [mul_self_add_le_of_lt hr (hY.trans_le hX)]

/-- The invariant of the walk's loop at `(x, y)` with decision variable `d` (R77): the circle is not beyond column `x`, it
is not before it either as long as the walk is in the octant, and `d` tells on which side of `x - 1/2` the circle
crosses the next row. -/
structure WalkInvariant (r x y d : Int) : Prop where
  x_nonneg : 0 ≤ x
  y_nonneg : 0 ≤ y
  decision : d = x * x - x + (y + 1) * (y + 1) - r * r
  upper : r * r ≤ x * x + x + y * y
  lower : y ≤ x → x * x - x + y * y < r * r

theorem WalkInvariant.nearest (h : WalkInvariant r x y d) (hyx : y ≤ x) : NearestColumn r x y := ⟨h.lower hyx, h.upper⟩

/-- The circle crosses the next row in the same column. -/
theorem WalkInvariant.stay (h : WalkInvariant r x y d) (hd : d < 0) :
    WalkInvariant r x (y + 1) (d + 2 * (y + 1) + 1) := by
  obtain ⟨hx, hy, rfl, hu, -⟩ := h
  exact ⟨hx, by omega, by ring, by nlinarith, fun _ => by omega⟩

/-- The circle crosses the next row one column before. -/
theorem WalkInvariant.decrement (h : WalkInvariant r x y d) (hyx : y ≤ x) (hd : ¬d < 0) :
    WalkInvariant r (x - 1) (y + 1) (d + 2 * (y + 1) - 2 * (x - 1) + 1) := by
  have hl := h.lower hyx
  obtain ⟨hx, hy, rfl, hu, -⟩ := h
  exact ⟨by nlinarith, by omega, by ring, by linarith, fun _ => by nlinarith⟩

/-- Past the octant no point is left. -/
theorem WalkInvariant.not_nearest_of_lt (h : WalkInvariant r x y d) (hyx : ¬y ≤ x) (hY : y ≤ Y) (hX : Y ≤ X) :
    ¬NearestColumn r X Y := by
  rintro ⟨h1, -⟩
  nlinarith [h.upper, h.y_nonneg, mul_self_add_le_of_lt h.x_nonneg (show x < X by omega)]

/-- In the octant the points left are the current one and those of the rows above. -/
theorem WalkInvariant.left_iff (h : WalkInvariant r x y d) (hyx : y ≤ x) :
    (y ≤ Y ∧ Y ≤ X ∧ NearestColumn r X Y) ↔ (X = x ∧ Y = y) ∨ (y + 1 ≤ Y ∧ Y ≤ X ∧ NearestColumn r X Y) := by
  constructor
  · rintro ⟨hY, hX, hn⟩
    obtain rfl | hlt := hY.eq_or_lt
    · exact .inl ⟨(h.nearest hyx).unique hn h.x_nonneg (h.y_nonneg.trans hX), rfl⟩
    · exact .inr ⟨hlt, hX, hn⟩
  · rintro (⟨rfl, rfl⟩ | ⟨hY, hX, hn⟩)
    · exact ⟨le_rfl, hyx, h.nearest hyx⟩
    · exact ⟨by omega, hX, hn⟩

/-- The loop emits exactly the points left. Its bound is not what ends it: above row `r` none is left. -/
theorem mem_circleLoop_iff (hr : 0 ≤ r) : ∀ (fuel : Nat) (x y d : Int), WalkInvariant r x y d → r < fuel + y →
    ((X, Y) ∈ circleLoop fuel x y d ↔ y ≤ Y ∧ Y ≤ X ∧ NearestColumn r X Y)
  | 0, x, y, d, _, hf =>
    ⟨fun h => absurd h List.not_mem_nil, fun ⟨hY, hX, hn⟩ => absurd hn (not_nearestColumn_of_lt hr (by omega) hX)⟩
  | fuel + 1, x, y, d, h, hf => by
    rw [circleLoop]
    by_cases hyx : y ≤ x
    · rw [if_pos hyx, List.mem_cons, Prod.mk_inj, h.left_iff hyx]
      refine or_congr_right ?_
      split
      · next hd => exact mem_circleLoop_iff hr fuel _ _ _ (h.stay hd) (by omega)
      · next hd => exact mem_circleLoop_iff hr fuel _ _ _ (h.decrement hyx hd) (by omega)
    · rw [if_neg hyx]
      exact ⟨fun hm => absurd hm List.not_mem_nil, fun ⟨hY, hX, hn⟩ => absurd hn (h.not_nearest_of_lt hyx hY hX)⟩

theorem walkInvariant_start (hr : 1 ≤ r) : WalkInvariant r r 0 (1 - r) :=
  ⟨by omega, le_rfl, by ring, by linarith, fun _ => by linarith⟩

/-- Every step of the walk lies in the octant `0 ≤ y ≤ x`. -/
theorem octant_of_mem_circleLoop {p : Int × Int} : ∀ (fuel : Nat) (x y d : Int), 0 ≤ y → p ∈ circleLoop fuel x y d →
    0 ≤ p.2 ∧ p.2 ≤ p.1
  | 0, _, _, _, _, h => absurd h List.not_mem_nil
  | fuel + 1, x, y, d, hy, h => by
    rw [circleLoop] at h
    split at h
    · next hyx =>
      obtain rfl | h := List.mem_cons.1 h
      · exact ⟨hy, hyx⟩
      · split at h <;> exact octant_of_mem_circleLoop fuel _ _ _ (by omega) h
    · exact absurd h List.not_mem_nil

theorem octant_of_mem_circleWalk {p : Int × Int} (h : p ∈ circleWalk r) : 0 ≤ p.2 ∧ p.2 ≤ p.1 :=
  octant_of_mem_circleLoop _ _ _ _ le_rfl h

theorem circleWalk_zero : circleWalk 0 = [(0, 0)] := rfl

theorem circleWalk_of_neg (hr : r < 0) : circleWalk r = [] := by
  rw [circleWalk, circleLoop, if_neg (by omega)]

end

/-- Settles O32: `mem_circleLoop_iff` from the start of the walk. -/
theorem circleWalkIsTheNearestOctant : Obligations.CircleWalkIsTheNearestOctant :=
  ⟨fun _ _ _ hr => mem_circleLoop_iff (by omega) _ _ _ _ (walkInvariant_start hr) (by omega), circleWalk_zero,
    fun _ => circleWalk_of_neg⟩

end Sys2Proof.Machine
end

section
/-! The rasterizer's family of statements, commands: what DRAWLINE, DRAWRECT and DRAWCIRCLE draw (R72 to R80). -/

namespace Sys2Proof.Machine

/-! ### Drawing one shape after another -/

/-- `t` is `s` with the points `P` of the panel drawn in colour `c`, and nothing else changed (R64). -/
structure Draws (c : Colour) (P : Int → Int → Prop) (s t : State) : Prop where
  repainted : Repainted s t
  drawn : Drawn P c s t.fb t.dirty

section
variable {c : Colour} {P Q : Int → Int → Prop} {s t u : State}

theorem Draws.trans (h : Draws c P s t) (g : Draws c Q t u) : Draws c (fun X Y => P X Y ∨ Q X Y) s u :=
  ⟨h.repainted.trans g.repainted, h.drawn.andThen h.repainted g.drawn⟩

theorem Draws.congr (h : Draws c P s t) (hq : ∀ X Y : Int, P X Y ↔ Q X Y) : Draws c Q s t :=
  ⟨h.repainted, h.drawn.congr fun x y _ _ => hq x y⟩

/-- A command without a sync tail whose drawing leads to `t`, in the form in which the statements say it. -/
theorem Draws.of_exec {i : Instr} (h : Draws c P s t) (e : exec i s = .next t) :
    ∃ fb dirty, exec i s = .next { s with fb := fb, dirty := dirty } ∧ Drawn P c s fb dirty :=
  ⟨t.fb, t.dirty, by rw [e, ← h.repainted.frame], h.drawn⟩

/-- A fold of drawings draws the union. -/
theorem foldl_draws {α : Type} {f : State → α → State} {P : α → Int → Int → Prop} :
    ∀ (l : List α) {s : State}, s.Panel → (∀ a ∈ l, ∀ t : State, t.Panel → Draws c (P a) t (f t a)) →
      Draws c (fun X Y => ∃ a ∈ l, P a X Y) s (l.foldl f s)
  | [], s, hp, _ => ⟨.refl s, Drawn.none hp.fb_length hp.dirty_length (by simp)⟩
  | a :: l, s, hp, hf =>
    have ha := hf a List.mem_cons_self s hp
    (ha.trans (foldl_draws l (ha.repainted.panel hp) fun b hb => hf b (List.mem_cons_of_mem a hb))).congr (by simp)

theorem setPixels_draws (c : Colour) (ps : List (Int × Int)) (hp : s.Panel) :
    Draws c (fun X Y => (X, Y) ∈ ps) s (setPixels c ps s) :=
  ⟨setPixels_repainted c ps s, setPixels_drawn c ps hp⟩

theorem line_draws (c : Colour) (x0 y0 x1 y1 : Int) (hp : s.Panel) :
    Draws c (fun X Y => (X, Y) ∈ linePoints x0 y0 x1 y1) s (line c x0 y0 x1 y1 s) :=
  setPixels_draws c _ hp

/-- One more line after a drawing. -/
theorem Draws.thenLine (h : Draws c P s t) (hp : s.Panel) (x0 y0 x1 y1 : Int) :
    Draws c (fun X Y => P X Y ∨ (X, Y) ∈ linePoints x0 y0 x1 y1) s (line c x0 y0 x1 y1 t) :=
  h.trans (line_draws c x0 y0 x1 y1 (h.repainted.panel hp))

/-! ### Rectangles (R73 to R75) -/

/-- The vertical lines next to each other fill the region. -/
theorem rectSolid_draws (c : Colour) (x y w : Int) {h : Int} (hh : 1 ≤ h) (hp : s.Panel) :
    Draws c (fun X Y => x ≤ X ∧ X ≤ x + w - 1 ∧ y ≤ Y ∧ Y ≤ y + h - 1) s (rectSolid c x y w h s) := by
  refine (foldl_draws _ hp fun i _ t ht => line_draws c (x + i) y (x + i) (y + h - 1) ht).congr fun X Y => ?_
  simp only [List.bind_eq_flatMap, List.pure_def, List.mem_flatMap, List.mem_range, List.mem_singleton,
    mem_verticalLine_iff]
  constructor
  · rintro ⟨_, ⟨i, hi, rfl⟩, rfl, hY⟩
    omega
  · intro hXY
    exact ⟨_, ⟨(X - x).toNat, by omega, rfl⟩, by omega⟩

theorem rect_solid {w h : Int} (hw : 1 ≤ w) (hh : 1 ≤ h) (c : Colour) (x y : Int) (s : State) :
    rect .solid c x y w h s = rectSolid c x y w h s := if_pos ⟨hw, hh⟩

theorem rect_outline {w h : Int} (hw : 1 ≤ w) (hh : 1 ≤ h) (c : Colour) (x y : Int) (s : State) :
    rect .outline c x y w h s = rectOutline c x y w h s := if_pos ⟨hw, hh⟩

/-- Without a column or without a row there is no rectangle (R75). -/
theorem rect_of_degenerate {w h : Int} (hwh : w ≤ 0 ∨ h ≤ 0) (f : Fill) (c : Colour) (x y : Int) (s : State) :
    rect f c x y w h s = s := by
  unfold rect
  rw [if_neg (by omega)]

/-- The four edges are the perimeter of the region. -/
theorem rectOutline_draws (c : Colour) (x y : Int) {w h : Int} (hw : 1 ≤ w) (hh : 1 ≤ h) (hp : s.Panel) :
    Draws c (fun X Y => (x ≤ X ∧ X ≤ x + w - 1 ∧ y ≤ Y ∧ Y ≤ y + h - 1) ∧
      (X = x ∨ X = x + w - 1 ∨ Y = y ∨ Y = y + h - 1)) s (rectOutline c x y w h s) := by
  refine ((((line_draws c _ _ _ _ hp).thenLine hp _ _ _ _).thenLine hp _ _ _ _).thenLine hp _ _ _ _).congr fun X Y => ?_
  simp only [mem_horizontalLine_iff, mem_verticalLine_iff]
  omega

/-! ### Circles (R78 to R80) -/

/-- `(X, Y)` is one of the eight sign and swap images of the step `p` about the centre (R78). -/
def IsImage (cx cy : Int) (p : Int × Int) (X Y : Int) : Prop :=
  (|X - cx| = p.1 ∧ |Y - cy| = p.2) ∨ (|X - cx| = p.2 ∧ |Y - cy| = p.1)

/-- `(X, Y)` lies on one of the four spans of the step `p` about the centre (R79). -/
def OnSpan (cx cy : Int) (p : Int × Int) (X Y : Int) : Prop :=
  (|X - cx| ≤ p.1 ∧ |Y - cy| = p.2) ∨ (|X - cx| ≤ p.2 ∧ |Y - cy| = p.1)

theorem IsImage.onSpan {cx cy X Y : Int} {p : Int × Int} (h : IsImage cx cy p X Y) : OnSpan cx cy p X Y :=
  h.imp (.imp_left le_of_eq) (.imp_left le_of_eq)

/-- A rotation by 90 degrees about the centre exchanges the two distances from it. -/
theorem IsImage.rotate {cx cy u v : Int} {p : Int × Int} (h : IsImage cx cy p (cx + u) (cy + v)) :
    IsImage cx cy p (cx - v) (cy + u) := by
  simp only [IsImage, add_sub_cancel_left, sub_sub_cancel_left, abs_neg] at h ⊢
  exact h.symm.imp And.symm And.symm

section
variable {cx cy r : Int} {p : Int × Int} (hp1 : 0 ≤ p.1) (hp2 : 0 ≤ p.2)
include hp1 hp2

theorem mem_circlePoints_iff {X Y : Int} : (X, Y) ∈ circlePoints cx cy p ↔ IsImage cx cy p X Y := by
  simp only [circlePoints, List.mem_cons, List.not_mem_nil, or_false, Prod.mk_inj, IsImage, abs_eq hp1, abs_eq hp2]
  omega

theorem circleSpans_draws (c : Colour) (hp : s.Panel) : Draws c (OnSpan cx cy p) s (circleSpans c cx cy p s) := by
  refine ((((line_draws c _ _ _ _ hp).thenLine hp _ _ _ _).thenLine hp _ _ _ _).thenLine hp _ _ _ _).congr fun X Y => ?_
  simp only [mem_horizontalLine_iff, OnSpan, abs_le, abs_eq hp1, abs_eq hp2]
  omega

end

theorem circle_outline_draws (c : Colour) (cx cy r : Int) (hp : s.Panel) :
    Draws c (fun X Y => ∃ p ∈ circleWalk r, IsImage cx cy p X Y) s (circle .outline c cx cy r s) :=
  foldl_draws _ hp fun _ hm _ ht =>
    have ⟨h2, h21⟩ := octant_of_mem_circleWalk hm
    (setPixels_draws c _ ht).congr fun _ _ => mem_circlePoints_iff (h2.trans h21) h2

theorem circle_solid_draws (c : Colour) (cx cy r : Int) (hp : s.Panel) :
    Draws c (fun X Y => ∃ p ∈ circleWalk r, OnSpan cx cy p X Y) s (circle .solid c cx cy r s) :=
  foldl_draws _ hp fun _ hm _ ht =>
    have ⟨h2, h21⟩ := octant_of_mem_circleWalk hm
    circleSpans_draws (h2.trans h21) h2 c ht

theorem mem_outlineCircle_iff {cx cy r X Y : Int} :
    (X, Y) ∈ (circleWalk r).flatMap (circlePoints cx cy) ↔ ∃ p ∈ circleWalk r, IsImage cx cy p X Y := by
  rw [List.mem_flatMap]
  refine exists_congr fun p => and_congr_right fun hm => ?_
  obtain ⟨h2, h21⟩ := octant_of_mem_circleWalk hm
  exact mem_circlePoints_iff (h2.trans h21) h2

theorem circle_of_neg {r : Int} (hr : r < 0) (f : Fill) (c : Colour) (cx cy : Int) (s : State) :
    circle f c cx cy r s = s := by
  cases f <;> rw [circle, circleWalk_of_neg hr] <;> rfl

/-- The circle of radius 0 is its centre, in both modes (R80). -/
theorem circle_zero_draws (f : Fill) (c : Colour) (cx cy : Int) (hp : s.Panel) :
    Draws c (fun X Y => X = cx ∧ Y = cy) s (circle f c cx cy 0 s) := by
  cases f with
  | outline =>
    refine (circle_outline_draws c cx cy 0 hp).congr fun X Y => ?_
    simp [circleWalk_zero, IsImage, sub_eq_zero]
  | solid =>
    refine (circle_solid_draws c cx cy 0 hp).congr fun X Y => ?_
    simp [circleWalk_zero, OnSpan, sub_eq_zero]

/-- A panel pixel that drawing has changed is a plotted one. -/
theorem Draws.plotted_of_changed (h : Draws c P s t) {x y : Nat} (hx : x < s.W) (hy : y < s.H)
    (hne : pixelAt s.W t.fb x y ≠ pixelAt s.W s.fb x y) : P x y :=
  by_contra fun hP => hne (h.drawn.kept x y hx hy hP)

end

/-! ### The statements on commands -/

/-- Settles O28: the points of the loop are those of the closed form. -/
theorem drawlineDrawsTheLine : Obligations.DrawlineDrawsTheLine := by
  intro s x0 y0 x1 y1 c hs
  rw [← lineLoopEqualsClosedForm]
  exact (line_draws c x0 y0 x1 y1 hs.panel).of_exec rfl

/-- Settles O29: `rectSolid_draws` on the panel of an accepting state. -/
theorem drawrectSolidFillsTheRegion : Obligations.DrawrectSolidFillsTheRegion := by
  intro s x y w h c hs hw hh
  refine (rectSolid_draws c x y w hh hs.panel).of_exec ?_
  rw [exec, execDrawrect, rect_solid hw hh]
  rfl

/-- Settles O30: `rectOutline_draws` on the panel of an accepting state. -/
theorem drawrectOutlineDrawsThePerimeter : Obligations.DrawrectOutlineDrawsThePerimeter := by
  intro s x y w h c hs hw hh
  refine (rectOutline_draws c x y hw hh hs.panel).of_exec ?_
  rw [exec, execDrawrect, rect_outline hw hh]
  rfl

/-- Settles O31: the test of R76 fails and nothing is drawn. -/
theorem degenerateDrawrectPlotsNothing : Obligations.DegenerateDrawrectPlotsNothing := by
  intro s x y w h f c hwh
  rw [exec, execDrawrect, rect_of_degenerate hwh]
  rfl

/-- Settles O33: each step draws its eight images. -/
theorem drawcircleOutlineDrawsTheEightImages : Obligations.DrawcircleOutlineDrawsTheEightImages :=
  fun _ cx cy r c hs => (circle_outline_draws c cx cy r hs.panel).of_exec rfl

/-- Settles O34: each step draws its four spans. -/
theorem drawcircleSolidFillsTheSpans : Obligations.DrawcircleSolidFillsTheSpans :=
  fun _ cx cy r c hs => (circle_solid_draws c cx cy r hs.panel).of_exec rfl

/-- Settles O35: the images of each step are mapped to themselves. -/
theorem outlineCircleIsRotationInvariant : Obligations.OutlineCircleIsRotationInvariant := by
  intro cx cy r u v h
  rw [mem_outlineCircle_iff] at h ⊢
  exact h.imp fun p => And.imp_right IsImage.rotate

/-- Settles O36: the walk is empty for `r < 0`, and the one step (0, 0) for `r = 0`. -/
theorem smallestCircles : Obligations.SmallestCircles := by
  refine ⟨fun s cx cy r f c hr => ?_, fun s cx cy f c hs => (circle_zero_draws f c cx cy hs.panel).of_exec rfl⟩
  rw [exec, execDrawcircle, circle_of_neg hr]
  rfl

/-- Settles O37: a pixel that the outline has set is an image of a step, and an image of a step lies on its spans. -/
theorem solidCircleContainsTheOutline : Obligations.SolidCircleContainsTheOutline := by
  intro s t u cx cy r x y hs hx hy hclear ht hu hset
  obtain rfl : circle .outline .set cx cy r s = t := by cases ht; rfl
  obtain rfl : circle .solid .set cx cy r s = u := by cases hu; rfl
  have himage := (circle_outline_draws .set cx cy r hs.panel).plotted_of_changed hx hy (by simp [hset, hclear])
  exact (circle_solid_draws .set cx cy r hs.panel).drawn.plotted x y hx hy
    (himage.imp fun p => And.imp_right IsImage.onSpan)

end Sys2Proof.Machine
end

section
/-! The bitmap and image commands' family of statements: SETSRC, DRAWBITMAP and DRAWIMAGE without sync (R81 to R86). -/

namespace Sys2Proof.Machine

/-! ### DRAWBITMAP marks every byte (R83) -/

/-- Every byte of the framebuffer holds a panel pixel: its column's, in the top row of its page (R19). -/
theorem exists_pixel_of_byte {s : State} (hp : s.Panel) {k : Nat} (hk : k < s.L) :
    ∃ x y, x < s.W ∧ y < s.H ∧ x + s.W * (y / 8) = k := by
  refine ⟨k % s.W, 8 * (k / s.W), ?_⟩
  obtain ⟨hW, hH, hL⟩ | ⟨hW, hH, hL⟩ | ⟨hW, hH, hL⟩ := hp.sizes <;> rw [hL] at hk <;> rw [hW, hH] <;> omega

/-- The sample array has a sample for every panel pixel (R83). -/
theorem sample_index_lt {w h x y : Nat} (hx : x < w) (hy : y < h) : y * w + x < w * h :=
  calc y * w + x < (y + 1) * w := by rw [Nat.succ_mul]; omega
    _ ≤ h * w := Nat.mul_le_mul_right w hy
    _ = w * h := Nat.mul_comm h w

/-- With all samples written every byte is dirty (R83). -/
theorem Sampled.all_dirty {s : State} {smp : Nat → Byte} {fb : List Byte} {dirty : List Bool} (hp : s.Panel)
    (h : Sampled s smp (s.W * s.H) fb dirty) {k : Nat} (hk : k < s.L) : dirty.getD k false = true := by
  obtain ⟨x, y, hx, hy, hxy⟩ := exists_pixel_of_byte hp hk
  exact (h.marked k hk).2 (.inr ⟨x, y, hx, hy, sample_index_lt hx hy, hxy⟩)

/-! ### DRAWIMAGE with every landing pixel admitted, or with none landing (R86) -/

section
variable {s : State} {dx dy : Int}

/-- All bytes composited, then the sync tail. -/
theorem exec_drawimage_admitted {img : Nat → Nat → Nat → Byte} (hp : s.Panel)
    (ha : ∀ ix iy X Y, LandsAt s dx dy ix iy X Y → ∀ j < 4, Admits s (imageAddr s ix iy j) (img ix iy j)) (sync : Bool) :
    ∃ u, Repainted s u ∧ Composited s dx dy img s.L u.fb u.dirty ∧
      exec (.drawimage dx dy sync) s = finish (syncTail sync u) := by
  obtain ⟨u, hu, hc, e⟩ := imageLoop_admitted hp [] s.L 0 s (by omega) (.refl s) (.zero hp dx dy img)
    fun ix iy X Y hl _ => ha ix iy X Y hl
  rw [List.append_nil, ← List.range_eq_range'] at e
  rw [Nat.zero_add] at hc
  exact ⟨u, hu, hc, by rw [exec, execDrawimage, e]; rfl⟩

/-- No pixel of an empty image, or of one wholly off the panel, lands on it (R86). -/
theorem not_landsAt_of_off (hoff : s.srcW = 0 ∨ s.srcH = 0 ∨ (s.W : Int) ≤ dx ∨ (s.H : Int) ≤ dy ∨
    dx ≤ -(s.srcW.toNat : Int) ∨ dy ≤ -(s.srcH.toNat : Int)) (ix iy X Y : Nat) : ¬LandsAt s dx dy ix iy X Y := by
  rintro ⟨hix, hiy, hX, hY, ex, ey⟩
  obtain h | h | h | h | h | h := hoff
  · simp [h] at hix
  · simp [h] at hiy
  all_goals omega

/-- A byte on which no image pixel lands is composed without a read, and keeps its value. -/
theorem imageBits_none_lands (hp : s.Panel) (hn : ∀ ix iy X Y, ¬LandsAt s dx dy ix iy X Y) {k : Nat} (hk : k < s.L)
    (new : Byte) : ∀ l : List Nat, (∀ j ∈ l, j < 8) → imageBits s dx dy k l new = .ok new
  | [], _ => rfl
  | j :: l, hl => by
    have hout : ¬inImage s ((k % s.W : Nat) - dx) ((8 * (k / s.W) + j : Nat) - dy) = true := fun hin =>
      hn _ _ _ _ ((inImage_iff hp hk (hl j List.mem_cons_self)).1 hin)
    rw [imageBits, if_neg hout]
    exact imageBits_none_lands hp hn hk new l fun i hi => hl i (List.mem_cons_of_mem j hi)

/-- A byte whose value is unchanged is not committed (R85). -/
theorem commitByte_fbAt (k : Nat) (s : State) : commitByte k (fbAt s k) s = s := if_pos rfl

/-- When no image pixel lands on the panel, the byte loop changes nothing. -/
theorem imageLoop_none_lands (hp : s.Panel) (hn : ∀ ix iy X Y, ¬LandsAt s dx dy ix iy X Y) :
    ∀ l : List Nat, (∀ k ∈ l, k < s.L) → imageLoop dx dy l s = .go s
  | [], _ => rfl
  | k :: l, hl => by
    have hbits := imageBits_none_lands hp hn (hl k List.mem_cons_self) (fbAt s k) (List.range 8)
      fun _ => List.mem_range.1
    rw [imageLoop, hbits]
    dsimp only
    rw [commitByte_fbAt]
    exact imageLoop_none_lands hp hn l fun i hi => hl i (List.mem_cons_of_mem k hi)

end

/-! ### The statements of the family -/

/-- Settles O38: all samples drawn, and every byte holds the pixel of one of them. -/
theorem drawbitmapWritesEverySample : Obligations.DrawbitmapWritesEverySample := by
  intro s smp hs ha
  obtain ⟨u, hu, hsampled, e⟩ := exec_drawbitmap_admitted hs.panel ha false
  refine ⟨u.fb, u.dirty, ?_, hsampled, fun k hk => hsampled.all_dirty hs.panel hk⟩
  rw [e, ← hu.frame]
  rfl

/-- Settles O40: the byte loop over all `L` bytes, no sync tail after it. -/
theorem drawimageCompositesTheImage : Obligations.DrawimageCompositesTheImage := by
  intro s dx dy img hs ha
  obtain ⟨u, hu, hcomposited, e⟩ := exec_drawimage_admitted hs.panel ha false
  refine ⟨u.fb, u.dirty, ?_, hcomposited⟩
  rw [e, ← hu.frame]
  rfl

/-- Settles O42: no image pixel lands on the panel, so no byte of `FB` takes a read or changes. -/
theorem drawimageOffPanelReadsNothing : Obligations.DrawimageOffPanelReadsNothing := by
  intro s dx dy hs hoff
  rw [exec, execDrawimage, imageLoop_none_lands hs.panel (not_landsAt_of_off hoff) _ fun _ => List.mem_range.1]
  rfl

/-- Settles O24: operands that fit the registers' widths are held as they are. -/
theorem setsrcLoadsTheSourceRegisters : Obligations.SetsrcLoadsTheSourceRegisters := by
  intro s w h base hwf
  simp only [Instr.wellFormed, Bool.and_eq_true] at hwf
  obtain ⟨⟨hw, hh⟩, hbase⟩ := hwf
  have hfits : base < 2 ^ 32 := of_decide_eq_true hbase
  exact ⟨_, _, _, rfl, (BitVec.toNat_ofNat ..).trans (Nat.mod_eq_of_lt hfits), u16_toU16 hw, u16_toU16 hh⟩

end Sys2Proof.Machine
end

section
/-! The update's family of statements: FLUSH and FLUSHDIRTY, the decision between them, their traffic on the bus, and the
sync tail of the drawing commands (R88 to R98). -/

namespace Sys2Proof.Machine

/-! ### How a refresh ends, by the device's answers (R88, R91, R95) -/

section
variable {s t : State} {q : Nat} {bursts : List (List Byte)} {r r' : Flow}

theorem RefreshEnds.of_ready (h : RefreshEnds s bursts r) (hq : ReadyAt s q) :
    r = .go (clearDirty (transmit bursts (probed s (q + 1)))) := by
  cases h with
  | timedOut busy => exact absurd busy hq.not_busy
  | sent p hp => rw [hp.unique hq]

theorem RefreshEnds.of_busy (h : RefreshEnds s bursts r) (hb : BusyThroughout s) :
    r = .abandoned (enterFault .pollTimeout (pollTimeoutInfo s.params.pollMax) (probed s s.params.pollMax)) := by
  cases h with
  | timedOut _ => rfl
  | sent _ hq => exact absurd hb hq.not_busy

/-- The state and the bursts determine how a refresh ends. -/
theorem RefreshEnds.unique (h : RefreshEnds s bursts r) (h' : RefreshEnds s bursts r') : r = r' := by
  cases h with
  | timedOut busy => exact (h'.of_busy busy).symm
  | sent _ hq => exact (h'.of_ready hq).symm

/-- The events of a completed refresh: the answers to the probe, then the bursts. -/
theorem trace_sent (s : State) (bursts : List (List Byte)) (n : Nat) :
    (clearDirty (transmit bursts (probed s n))).trace =
      s.trace ++ (probeAnswers s n).map (.rx s.cfgAddr) ++ bursts.map (.tx s.cfgAddr) := by
  rw [← probed_trace]
  rfl

/-- A FLUSH that did not halt has sent its bursts. -/
theorem exists_sent_of_flush (h : exec .flush s = .next t) (hh : t.halt = false) :
    ∃ n, t = clearDirty (transmit (fullBursts s) (probed s n)) := by
  obtain rfl : (fullRefresh s).state = t := by cases h; rfl
  obtain ⟨q, _, e⟩ := (fullRefresh_ends s).sent_of_not_halted hh
  exact ⟨q + 1, by rw [e]; rfl⟩

theorem dirtyAt_clearDirty (s : State) (k : Nat) : dirtyAt (clearDirty s) k = false := by
  rw [dirtyAt, clearDirty_dirty, List.getD_eq_getElem?_getD, List.getElem?_getD_replicate_default_eq]

end

/-! ### The bursts written out (R89 to R94) -/

section
variable {s : State}

/-- A list read entry by entry. -/
theorem map_getD_range {α : Type} {l : List α} {n : Nat} (h : l.length = n) (d : α) :
    (List.range n).map (fun k => l.getD k d) = l := by
  refine List.ext_getElem (by simp [h]) fun k _ hk => ?_
  simp [List.getD_eq_getElem?_getD, hk]

/-- The bursts of a full refresh on a supported panel (R91). -/
theorem fullBursts_eq (hp : s.Panel) : fullBursts s =
    [[0x00, s.params.opcColumn], [0x00, 0x00], [0x00, s.cfgW - 1], [0x00, s.params.opcPage], [0x00, 0x00],
      [0x00, BitVec.ofNat 8 (s.H / 8 - 1)], 0x40 :: s.fb] := by
  have hW : 1 ≤ s.cfgW.toNat := by
    obtain ⟨h, _, _⟩ | ⟨h, _, _⟩ | ⟨h, _, _⟩ := hp.sizes <;> rw [State.W] at h <;> omega
  have hlast : BitVec.ofNat 8 (s.W - 1) = s.cfgW - 1 := by
    rw [State.W]
    bv_omega
  have hfb : (List.range s.L).map (fbAt s) = s.fb := map_getD_range hp.fb_length 0
  rw [fullBursts, hfb, ← hlast]
  rfl

/-- The dirty bytes, ascending (R94). -/
def dirtyBytes (s : State) : List Nat := (List.range s.L).filter fun k => dirtyAt s k

theorem length_dirtyBytes (h : s.dirty.length = s.L) : (dirtyBytes s).length = dcount s := by
  have hmap : (List.range s.L).map (dirtyAt s) = s.dirty := map_getD_range h false
  rw [dirtyBytes, ← List.countP_eq_length_filter, dcount, ← hmap, List.count, List.countP_map]
  simp [Function.comp_def]

theorem flatMap_ite_nil {α β : Type} (p : α → Bool) (f : α → List β) (l : List α) :
    (l.flatMap fun a => if p a then f a else []) = (l.filter p).flatMap f := by
  induction l with
  | nil => rfl
  | cons a l ih =>
    rw [List.flatMap_cons, List.filter_cons, ih]
    split <;> rfl

/-- The bursts of a partial refresh: those of each dirty byte (R94). -/
theorem partialBursts_eq (s : State) : partialBursts s = (dirtyBytes s).flatMap (byteBursts s) :=
  flatMap_ite_nil _ _ _

theorem flushBursts_of_lt (h : s.L < 7 * dcount s) : flushBursts s = fullBursts s := if_pos (decide_eq_true h)

theorem flushBursts_of_le (h : 7 * dcount s ≤ s.L) : flushBursts s = partialBursts s := by
  simp [flushBursts, prefersFull, h]

end

/-! ### Counting the traffic (R98) -/

section
variable (a : Byte)

/-- Status reads in front are counted as reads and add nothing to the bursts. -/
theorem counts_map_rx_append (answers : List Byte) (es : List Event) :
    rxEvents (answers.map (.rx a) ++ es) = rxEvents es + answers.length ∧
      txCount (answers.map (.rx a) ++ es) = txCount es ∧ txBytes (answers.map (.rx a) ++ es) = txBytes es := by
  induction answers with
  | nil => exact ⟨rfl, rfl, rfl⟩
  | cons b answers ih => simpa [rxEvents, txCount, txBytes, ← Nat.add_assoc] using ih

/-- Bursts are counted with their bytes and are no reads. -/
theorem counts_map_tx (bursts : List (List Byte)) : rxEvents (bursts.map (.tx a)) = 0 ∧
    txCount (bursts.map (.tx a)) = bursts.length ∧ txBytes (bursts.map (.tx a)) = (bursts.map List.length).sum := by
  induction bursts with
  | nil => exact ⟨rfl, rfl, rfl⟩
  | cons b bursts ih => simpa [rxEvents, txCount, txBytes] using ih

end

section
variable {s : State} {q : Nat} {bursts : List (List Byte)} {r : Flow}

/-- The traffic of a refresh whose probe finds the device ready. -/
theorem RefreshEnds.traffic (h : RefreshEnds s bursts r) (hq : ReadyAt s q) :
    ∃ t ev, finish r = .next t ∧ t.trace = s.trace ++ ev ∧ rxEvents ev = q + 1 ∧ txCount ev = bursts.length ∧
      txBytes ev = (bursts.map List.length).sum := by
  rw [h.of_ready hq]
  refine ⟨_, (probeAnswers s (q + 1)).map (.rx s.cfgAddr) ++ bursts.map (.tx s.cfgAddr), rfl, ?_, ?_⟩
  · rw [← List.append_assoc]
    exact trace_sent s bursts (q + 1)
  · obtain ⟨hrx, htx, hbytes⟩ := counts_map_rx_append s.cfgAddr (probeAnswers s (q + 1)) (bursts.map (.tx s.cfgAddr))
    obtain ⟨hrx', htx', hbytes'⟩ := counts_map_tx s.cfgAddr bursts
    rw [hrx', length_probeAnswers, Nat.zero_add] at hrx
    exact ⟨hrx, htx.trans htx', hbytes.trans hbytes'⟩

/-- A full refresh sends six bursts of two bytes, then the marker and the framebuffer. -/
theorem bytes_fullBursts (s : State) : ((fullBursts s).map List.length).sum = s.L + 13 := by
  simp only [fullBursts, window, cmdValue, dataBurst, List.cons_append, List.nil_append, List.map_cons, List.map_nil,
    List.length_cons, List.length_nil, List.length_map, List.length_range, List.sum_cons, List.sum_nil]
  omega

/-- A partial refresh sends seven bursts of two bytes for each dirty byte. -/
theorem length_and_bytes_partialBursts (h : s.dirty.length = s.L) :
    (partialBursts s).length = 7 * dcount s ∧ ((partialBursts s).map List.length).sum = 14 * dcount s := by
  rw [partialBursts_eq, ← length_dirtyBytes h]
  induction dirtyBytes s with
  | nil => exact ⟨rfl, rfl⟩
  | cons k l ih =>
    simp only [List.flatMap_cons, List.map_append, List.sum_append, List.length_append, List.length_cons, ih.1, ih.2]
    simp [byteBursts, window, cmdValue, dataBurst, Nat.mul_add, Nat.add_comm]

end

/-! ### The sync tail (R97) -/

/-- A drawing command is its drawing, the same with either sync bit, then the sync tail; the drawing goes on, or raises
SRC_ACCESS. -/
theorem exec_withSync_eq {i : Instr} (hi : i.draws = true) (s : State) :
    ∃ r : Flow, (∀ sync, exec (i.withSync sync) s = finish (r.andThen (syncTail sync))) ∧
      ((∃ m, Repainted s m ∧ r = .go m) ∨
        ∃ m addr, Repainted s m ∧ r = .abandoned (enterFault .srcAccess (srcAccessInfo addr) m)) := by
  cases i with
  | setpixel x y c _ => exact ⟨_, fun _ => rfl, .inl ⟨_, setPixel_repainted c x y s, rfl⟩⟩
  | drawline x0 y0 x1 y1 c _ => exact ⟨_, fun _ => rfl, .inl ⟨_, line_repainted c x0 y0 x1 y1 s, rfl⟩⟩
  | drawrect x y w h f c _ => exact ⟨_, fun _ => rfl, .inl ⟨_, rect_repainted f c x y w h s, rfl⟩⟩
  | drawcircle cx cy r f c _ => exact ⟨_, fun _ => rfl, .inl ⟨_, circle_repainted f c cx cy r s, rfl⟩⟩
  | drawbitmap _ => exact ⟨_, fun _ => rfl, bitmapLoop_cases _ s⟩
  | drawimage dx dy _ => exact ⟨_, fun _ => rfl, imageLoop_cases dx dy _ s⟩
  | clear => cases hi
  | setsrc _ _ _ => cases hi
  | flush => cases hi
  | flushdirty => cases hi

/-! ### The statements of the family -/

/-- Settles O43: the probe's answer decides; the seven bursts are `fullBursts_eq`. -/
theorem flushSendsTheWholeBuffer : Obligations.FlushSendsTheWholeBuffer := by
  refine ⟨fun s q hs hq => ?_, fun s hb => ⟨pollTimeoutInfo s.params.pollMax, ?_⟩⟩
  · rw [exec, execFlush, (fullRefresh_ends s).of_ready hq, fullBursts_eq hs.panel]
    rfl
  · rw [exec, execFlush, (fullRefresh_ends s).of_busy hb]
    rfl

/-- Settles O44: the partial branch, its bursts grouped by dirty byte. -/
theorem flushdirtySendsEachDirtyByte : Obligations.FlushdirtySendsEachDirtyByte := by
  intro s q _ hle hq
  rw [exec, execFlushdirty, (flushDirty_ends s).of_ready hq, flushBursts_of_le hle, partialBursts_eq]
  simp only [finish, Flow.state, clearDirty, transmit, List.map_flatMap]
  rfl

/-- Settles O45: in the full branch both commands end a refresh with the same bursts; the boundaries are arithmetic. -/
theorem refreshDecision : Obligations.RefreshDecision := by
  intro s
  refine ⟨?_, ?_, ?_, ?_⟩
  · split
    · next hlt =>
      have hends := flushDirty_ends s
      rw [flushBursts_of_lt hlt] at hends
      exact congrArg finish (hends.unique (fullRefresh_ends s))
    · next hle =>
      have hpartial : prefersFull s = false := decide_eq_false hle
      rw [exec, execFlushdirty, flushDirty, hpartial]
      rfl
  all_goals
    intro hW hH
    simp only [State.L, fbLength, hW, hH, BitVec.reduceToNat]
    omega

/-- Settles O46: both commands probe first, whatever they would send. -/
theorem busyDeviceTimesOut : Obligations.BusyDeviceTimesOut := by
  intro s i hi hb hmax
  have hinfo : pollTimeoutInfo s.params.pollMax = BitVec.ofNat 32 s.params.pollMax := if_pos hmax
  rw [← hinfo]
  obtain rfl | rfl := hi
  · rw [exec, execFlush, (fullRefresh_ends s).of_busy hb]
    rfl
  · rw [exec, execFlushdirty, (flushDirty_ends s).of_busy hb]
    rfl

/-- Settles O47: of the ends of a refreshing command only the completed refresh is not halted. -/
theorem dirtySetIsEmptyAfterARefresh : Obligations.DirtySetIsEmptyAfterARefresh := by
  intro i s t hi h hh k
  obtain ⟨m, _, he⟩ := exec_cases h
  cases he with
  | refused _ _ => cases hh
  | done hi' => simp [hi] at hi'
  | timedOut _ _ => cases hh
  | sent _ _ _ _ => exact dirtyAt_clearDirty _ k

/-- Settles O48: the traffic of a refresh is that of its bursts, full or partial. -/
theorem refreshTraffic : Obligations.RefreshTraffic := by
  intro s q hs hq
  constructor
  · obtain ⟨t, ev, ht, htrace, hrx, htx, hbytes⟩ := (fullRefresh_ends s).traffic hq
    exact ⟨t, ev, ht, htrace, hrx, htx, hbytes.trans (bytes_fullBursts s)⟩
  · obtain ⟨t, ev, ht, htrace, hrx, htx, hbytes⟩ := (flushDirty_ends s).traffic hq
    refine ⟨t, ev, ht, htrace, hrx, fun hlt => ?_, fun hle => ?_⟩
    · rw [htx, hbytes, flushBursts_of_lt hlt]
      exact ⟨rfl, bytes_fullBursts s⟩
    · rw [htx, hbytes, flushBursts_of_le hle]
      exact length_and_bytes_partialBursts hs.dirty_length

/-- Settles O49: a completed FLUSH leaves everything that its bursts are made of. -/
theorem twoFlushesSendTheSameBursts : Obligations.TwoFlushesSendTheSameBursts := by
  intro s t u ht hth hu huh
  obtain ⟨n, e⟩ := exists_sent_of_flush ht hth
  obtain ⟨m, rfl⟩ := exists_sent_of_flush hu huh
  have hbursts : fullBursts t = fullBursts s := by rw [e]; rfl
  have haddr : t.cfgAddr = s.cfgAddr := by rw [e]; rfl
  refine ⟨probeAnswers s n, probeAnswers t m, fullBursts s, rfl, ?_, ?_⟩
  · rw [e, trace_sent]
  · rw [trace_sent, hbursts, haddr]

/-- Settles O51: the drawing goes on to the tail in a block that is not halted, or has halted it. -/
theorem syncTailIsFlushdirty : Obligations.SyncTailIsFlushdirty := by
  intro i s t hi hs h
  obtain ⟨r, hexec, ⟨m, hm, rfl⟩ | ⟨m, addr, _, rfl⟩⟩ := exec_withSync_eq hi s <;> rw [hexec] at h ⊢
  · obtain rfl : m = t := by cases h; rfl
    rw [hm.halt, hs]
    rfl
  · obtain rfl : enterFault .srcAccess (srcAccessInfo addr) m = t := by cases h; rfl
    rfl

end Sys2Proof.Machine
end

section
/-! The exceptions' family of statements: no command is without a next state, the halted block, the two faults that
execution raises, and how far DRAWBITMAP and DRAWIMAGE have come when a source read is refused (R103 to R109). -/

namespace Sys2Proof.Machine

/-! ### The entry of a fault while drawing (R105) -/

/-- Raised after some drawing, a fault leaves that drawing and writes the three status fields, nothing else (R105). -/
theorem Repainted.enterFault_eq {s u : State} (h : Repainted s u) (cause : Cause) (info : BitVec 32) :
    enterFault cause info u =
      { s with fb := u.fb, dirty := u.dirty, halt := true, fcause := causeCode cause, finfo := info } := by
  rw [enterFault, h.frame]

/-- The numbers of a loop: those before `k`, then `k`, then the rest. -/
theorem exists_range_eq_before_cons {n k : Nat} (h : k < n) : ∃ rest, List.range n = List.range' 0 k ++ k :: rest := by
  refine ⟨List.range' (k + 1) (n - (k + 1)), ?_⟩
  have hsplit := List.range'_append_1 (s := 0) (m := k) (n := n - (k + 1) + 1)
  rw [Nat.zero_add, show k + (n - (k + 1) + 1) = n by omega, List.range'_succ] at hsplit
  rw [List.range_eq_range', hsplit]

/-! ### DRAWBITMAP up to a refused sample (R83, R108 (b)) -/

/-- The samples before the refused one drawn, then the entry of SRC_ACCESS; the sync tail does not run. -/
theorem exec_drawbitmap_refused {s : State} {smp : Nat → Byte} {i : Nat} (hp : s.Panel) (hi : i < s.W * s.H)
    (ha : ∀ j < i, Admits s (s.srcBase.toNat + j) (smp j)) (hr : Refuses s (s.srcBase.toNat + i)) (sync : Bool) :
    ∃ u, Repainted s u ∧ Sampled s smp i u.fb u.dirty ∧
      exec (.drawbitmap sync) s = .next (enterFault .srcAccess (srcAccessInfo (s.srcBase.toNat + i)) u) := by
  obtain ⟨rest, hrange⟩ := exists_range_eq_before_cons hi
  obtain ⟨u, hu, hs, e⟩ := bitmapLoop_admitted hp (i :: rest) i 0 s (.refl s) (.zero hp smp) (by simpa using ha)
  have hread : memRead u (sampleAddr u i) = .error (s.srcBase.toNat + i) := by
    rw [hu.sampleAddr, hu.memRead]
    exact memRead_of_refuses hr
  rw [Nat.zero_add] at hs
  rw [← hrange, bitmapLoop, hread] at e
  exact ⟨u, hu, hs, by rw [exec, execDrawbitmap, e]; rfl⟩

/-! ### DRAWIMAGE up to its first refused read (R86, R108 (c), R109) -/

/-- The read of component `j` of the image pixel that lands on `(X, Y)` is refused, and every read before it in scan
order finds the byte of `img`. -/
structure FirstRefusedRead (s : State) (dx dy : Int) (img : Nat → Nat → Nat → Byte) (ix iy X Y j : Nat) : Prop where
  lands : LandsAt s dx dy ix iy X Y
  component : j < 4
  refused : Refuses s (imageAddr s ix iy j)
  earlier : ∀ ix' iy' X' Y' j', LandsAt s dx dy ix' iy' X' Y' → j' < 4 → ReadBefore s X' Y' j' X Y j →
    Admits s (imageAddr s ix' iy' j') (img ix' iy' j')

section
variable {s t : State} {dx dy : Int} {img : Nat → Nat → Nat → Byte} {ix iy X Y j : Nat}

/-- Which read is refused first does not depend on the picture. -/
theorem FirstRefusedRead.of_repainted (h : FirstRefusedRead s dx dy img ix iy X Y j) (ht : Repainted s t) :
    FirstRefusedRead t dx dy img ix iy X Y j := by
  rw [ht.frame]
  exact { h with }

/-- The byte of the refused read is not composed. -/
theorem FirstRefusedRead.imageBits_eq (h : FirstRefusedRead s dx dy img ix iy X Y j) (hp : s.Panel) (old : Byte) :
    imageBits s dx dy (X + s.W * (Y / 8)) (List.range 8) old = .error (imageAddr s ix iy j) := by
  obtain ⟨hl, hj, hr, ha⟩ := h
  have ⟨_, _, hX, hY, _, _⟩ := hl
  obtain ⟨hcol, hrow⟩ := pixel_of_byte hp hX hY
  refine imageBits_refused (img := img) hp (byteIndex_lt hp hX hY) (Nat.mod_lt Y (by omega)) hj
    (by rwa [hcol, hrow]) (fun j' i' ix' iy' hj' hi' hbefore hl' => ?_) hr old
  have hpage : (X + s.W * (Y / 8)) / s.W = Y / 8 := by omega
  rw [hcol, hpage] at hl'
  have hbyte : (8 * (Y / 8) + j') / 8 = Y / 8 := by omega
  refine ha ix' iy' _ _ i' hl' hi' (.inr ⟨by rw [hbyte], ?_⟩)
  omega

/-- The byte loop up to a byte that is not composed: the bytes before it composited, then the entry of SRC_ACCESS. -/
theorem imageLoop_refused {n addr : Nat} (hp : s.Panel) (hn : n < s.L)
    (ha : ∀ ix iy X Y, LandsAt s dx dy ix iy X Y → X + s.W * (Y / 8) < n →
      ∀ i < 4, Admits s (imageAddr s ix iy i) (img ix iy i))
    (hbits : ∀ u, Repainted s u → imageBits u dx dy n (List.range 8) (fbAt u n) = .error addr) :
    ∃ u, Repainted s u ∧ Composited s dx dy img n u.fb u.dirty ∧
      imageLoop dx dy (List.range s.L) s = raiseSrcAccess addr u := by
  obtain ⟨rest, hrange⟩ := exists_range_eq_before_cons hn
  obtain ⟨u, hu, hc, e⟩ := imageLoop_admitted hp (n :: rest) n 0 s (by omega) (.refl s) (.zero hp dx dy img)
    (by simpa using ha)
  rw [Nat.zero_add] at hc
  exact ⟨u, hu, hc, by rw [hrange, e, imageLoop, hbits u hu]⟩

/-- The bytes before the one of the refused read composited, then the entry of SRC_ACCESS; the sync tail does not run. -/
theorem exec_drawimage_refused (hp : s.Panel) (h : FirstRefusedRead s dx dy img ix iy X Y j) (sync : Bool) :
    ∃ u, Repainted s u ∧ Composited s dx dy img (X + s.W * (Y / 8)) u.fb u.dirty ∧
      exec (.drawimage dx dy sync) s = .next (enterFault .srcAccess (srcAccessInfo (imageAddr s ix iy j)) u) := by
  have ⟨_, _, hX, hY, _, _⟩ := h.lands
  obtain ⟨u, hu, hc, e⟩ := imageLoop_refused hp (byteIndex_lt hp hX hY)
    (fun ix' iy' X' Y' hl hlt i hi => h.earlier ix' iy' X' Y' i hl hi (.inl hlt)) fun u hu => by
      have hbits := (h.of_repainted hu).imageBits_eq (hu.panel hp) (fbAt u (X + s.W * (Y / 8)))
      rwa [hu.W, imageAddr_of_repainted hu] at hbits
  exact ⟨u, hu, hc, by rw [exec, execDrawimage, e]; rfl⟩

end

/-! ### The statements of the family -/

/-- Settles O8: the inversion of `exec` has a next state in every case. -/
theorem everyCommandAnswersNext : Obligations.EveryCommandAnswersNext := by
  intro i s
  obtain ⟨_, t, e, _, _⟩ := exec_inversion i s
  exact ⟨t, e⟩

/-- Settles O9: both kinds of halted step are the fault; a store by the host is O18's step. -/
theorem haltedBlockAcceptsNothing : Obligations.HaltedBlockAcceptsNothing := by
  constructor
  · rintro s hs (hh | ⟨w, during, rest, hh⟩) <;> simp [step, hh, hs, haltedFault]
  · intro s a v rest hh
    obtain ⟨m, e, _⟩ := hostStoreThenReadReturnsTheByte s a v rest hh
    exact ⟨m, e⟩

/-- Settles O39: the samples before the refused one, then the fault's entry. -/
theorem drawbitmapStopsAtARefusedSample : Obligations.DrawbitmapStopsAtARefusedSample := by
  intro s smp i sync hs hi ha hr
  obtain ⟨u, hu, hsampled, e⟩ := exec_drawbitmap_refused hs.panel hi ha hr sync
  exact ⟨u.fb, u.dirty, by rw [e, hu.enterFault_eq]; rfl, hsampled⟩

/-- Settles O41: the bytes before the one of the refused read, then the fault's entry. -/
theorem drawimageStopsAtTheFirstRefusedRead : Obligations.DrawimageStopsAtTheFirstRefusedRead := by
  intro s dx dy img ix iy X Y j sync hs hl hj hr ha
  obtain ⟨u, hu, hcomposited, e⟩ := exec_drawimage_refused hs.panel ⟨hl, hj, hr, ha⟩ sync
  exact ⟨u.fb, u.dirty, by rw [e, hu.enterFault_eq]; rfl, hcomposited⟩

/-- Settles O54: a command's own writes leave the status; of its four ends one is POLL_TIMEOUT, one SRC_ACCESS. -/
theorem onlyTheTwoExecutionFaults : Obligations.OnlyTheTwoExecutionFaults := by
  intro i s t hs h
  obtain ⟨m, hw, he⟩ := exec_cases h
  have hm := hw.frame
  have hhalt : m.halt = false := hw.halt.trans hs
  have hfcause : m.fcause = s.fcause := by rw [hm]
  have hfinfo : m.finfo = s.finfo := by rw [hm]
  have htrace : m.trace = s.trace := by rw [hm]
  have hparams : m.params = s.params := by rw [hm]
  cases he with
  | refused addr hr => exact ⟨fun _ => .inr ⟨rfl, hr, htrace⟩, nofun⟩
  | timedOut hr _ =>
    refine ⟨fun _ => .inl ⟨rfl, hr, fun hmax => ?_⟩, nofun⟩
    rw [enterFault_finfo, hparams]
    exact if_pos hmax
  | done _ => exact ⟨fun ht => by simp [hhalt] at ht, fun _ => ⟨hfcause, hfinfo⟩⟩
  | sent _ _ _ _ =>
    refine ⟨fun ht => ?_, fun _ => ⟨hfcause, hfinfo⟩⟩
    have ht : m.halt = true := ht
    simp [hhalt] at ht

end Sys2Proof.Machine
end

section
/-! The reset's family of statements: what a reset by the host writes, its geometry check, and what it leaves alone
(R27, R118, R119). -/

namespace Sys2Proof.Machine

/-- The geometry check asks for one of the three pairs (R5). -/
theorem supportedGeometry_iff {w h : Byte} : supportedGeometry w h = true ↔
    (w = 128 ∧ h = 32) ∨ (w = 128 ∧ h = 64) ∨ (w = 96 ∧ h = 16) := by
  refine ⟨supported_cases, ?_⟩
  rintro (⟨rfl, rfl⟩ | ⟨rfl, rfl⟩ | ⟨rfl, rfl⟩) <;> rfl

section
variable {inputs : Construction} {n : Nat} {params : Params} {src : Memory} {host : List HostAction}
  {rxIn : List Byte} {rxCount : Nat}

/-- A reset with a supported geometry clears the status (R27). -/
theorem construct_status_of_supported
    (hg : supportedGeometry (inputs.w.getD defaultW) (inputs.h.getD defaultH) = true) :
    (State.construct inputs n params src host rxIn rxCount).halt = false ∧
    (State.construct inputs n params src host rxIn rxCount).fcause = 0 ∧
    (State.construct inputs n params src host rxIn rxCount).finfo = 0 := by
  simp [State.construct, hg]

/-- A reset with any other geometry halts the block with CONFIG_ERROR (R103, R119). -/
theorem construct_status_of_unsupported
    (hg : ¬supportedGeometry (inputs.w.getD defaultW) (inputs.h.getD defaultH) = true) :
    (State.construct inputs n params src host rxIn rxCount).halt = true ∧
    (State.construct inputs n params src host rxIn rxCount).fcause = causeCode .configError ∧
    (State.construct inputs n params src host rxIn rxCount).finfo =
      configErrorInfo (inputs.w.getD defaultW) (inputs.h.getD defaultH) := by
  simp [State.construct, hg]

/-- After a reset FB has `W*H/8` entries (R18). -/
theorem construct_fb_length :
    (State.construct inputs n params src host rxIn rxCount).fb.length =
      fbLength (inputs.w.getD defaultW) (inputs.h.getD defaultH) := by
  simp [State.construct, resetFramebuffer]

/-- After a reset DIRTY has `W*H/8` entries (R20). -/
theorem construct_dirty_length :
    (State.construct inputs n params src host rxIn rxCount).dirty.length =
      fbLength (inputs.w.getD defaultW) (inputs.h.getD defaultH) :=
  List.length_replicate

end

/-- A reset is taken whether the block is halted or not (R107, R118). -/
theorem step_reset {s : State} {inputs : Construction} {rest : List HostAction}
    (hh : s.host = .reset inputs :: rest) :
    step s = .next (State.construct inputs (s.resets + 1) s.params s.src rest s.rxIn s.rxCount) := by
  simp [step, hh, hostReset]

/-! ### The statements of the family -/

/-- Settles O13: the geometry check decides the status; a block it has halted accepts no word, as any halted block. -/
theorem hostResetLatchesAndChecksGeometry : Obligations.HostResetLatchesAndChecksGeometry := by
  intro s inputs rest hh
  refine ⟨_, step_reset hh, rfl, rfl, rfl, dirtyAt_construct _ _ _ _ _ _ _, rfl, rfl, rfl, rfl, rfl, fun hg => ?_,
    fun hg => ?_⟩
  · obtain ⟨hhalt, hfcause, hfinfo⟩ := construct_status_of_supported (supportedGeometry_iff.2 hg)
    exact ⟨hhalt, hfcause, hfinfo, construct_fb_length, construct_dirty_length⟩
  · obtain ⟨hhalt, hfcause, hfinfo⟩ := construct_status_of_unsupported (mt supportedGeometry_iff.1 hg)
    refine ⟨hhalt, hfcause, ?_, fun w during r => ?_⟩
    · rw [hfinfo]
      exact toNat_configErrorInfo _ _
    · exact haltedBlockAcceptsNothing.1 _ hhalt (.inr ⟨w, during, r, rfl⟩)

/-- Settles O14: a reset hands on the arguments of `State.construct` that are not MFBP's own. -/
theorem hostResetKeepsTheEnvironment : Obligations.HostResetKeepsTheEnvironment := by
  intro s inputs rest hh
  exact ⟨_, step_reset hh, rfl, rfl, rfl, rfl, rfl⟩

end Sys2Proof.Machine
end
